-- ==== Sys2Proof/Word.lean ====
section
/-! DEFINITION. The word types of CORE (00_scope.md R8) and the two closed tag sets of its decoder:
the operations (30_encoding.md R49) and the twelve addressing modes (40_addressing_modes.md R58). -/

namespace Sys2Proof

/-- `u8`: registers A, X, Y, SP, P and every memory byte (R7, R8). -/
abbrev Byte := BitVec 8

/-- `u16`: PC and effective addresses (R7, R8). -/
abbrev Word := BitVec 16

/-- The admitted operations (00_scope.md R2). -/
inductive Op where
  | lda
  | sta
  deriving DecidableEq, Repr

/-- The twelve addressing-mode tags (R58). The last four are used by no admitted opcode (R72). -/
inductive Mode where
  | immediate
  | zeroPage
  | zeroPageX
  | absolute
  | absoluteX
  | absoluteY
  | indexedIndirect
  | indirectIndexed
  | zeroPageY
  | relative
  | accumulator
  | indirect
  deriving DecidableEq, Repr

end Sys2Proof
end

