-- ==== Sys2Proof/Config.lean ====
section
/-! DEFINITION. The implementation parameters of 00_scope.md R7, and the one value the spec leaves
OPEN: the ROM bytes past the image (92_eei_decisions.md D9). -/

namespace Sys2Proof.Config

/-- ROM_SIZE (R7, R29). -/
def romSize : Nat := 32768

/-- RAM_SIZE (R7, R30; the spec's decision D7). -/
def ramSize : Nat := 32768

/-- DATA_SPLIT: data addresses below it are RAM, at or above it ROM (R7, R32; the spec's decision D7). -/
def dataSplit : Nat := 0x8000

/-- ENTRY: PC at reset (R7, R115; the spec's decision D10). -/
def entry : Word := 0x0000#16

/-- ROM_PAD (R7, R29), numbered by ROM offset: the byte at a ROM offset the launch does not fix.
OPEN in the spec, so it has no body and nothing can be proved of its values (DESIGN CHOICE, safe:
log entry 1). -/
opaque romPad : Nat → Byte

end Sys2Proof.Config
end

