-- ==== Sys2Proof/Syntax.lean ====
section
/-! DEFINITION. The instructions: one constructor for each row of spec/opcode_table.json, in its
order (30_encoding.md R52). -/

namespace Sys2Proof

/-- An instruction with its operand. A `Byte` operand is `operand_low` (format F2), a `Word`
operand is `operand_word` (format F3); 30_encoding.md R45, R55. -/
inductive Instr where
  /-- 0xA1 `LDA ($nn,X)` (41_load_store.md R74). -/
  | ldaIndexedIndirect (nn : Byte)
  /-- 0xA5 `LDA $nn` (R75). -/
  | ldaZeroPage (nn : Byte)
  /-- 0xA9 `LDA #$nn` (R76). -/
  | ldaImmediate (nn : Byte)
  /-- 0xAD `LDA $hhll` (R77). -/
  | ldaAbsolute (hhll : Word)
  /-- 0xB1 `LDA ($nn),Y` (R78). -/
  | ldaIndirectIndexed (nn : Byte)
  /-- 0xB5 `LDA $nn,X` (R79). -/
  | ldaZeroPageX (nn : Byte)
  /-- 0xB9 `LDA $hhll,Y` (R80). -/
  | ldaAbsoluteY (hhll : Word)
  /-- 0xBD `LDA $hhll,X` (R81). -/
  | ldaAbsoluteX (hhll : Word)
  /-- 0x81 `STA ($nn,X)` (R83). -/
  | staIndexedIndirect (nn : Byte)
  /-- 0x85 `STA $nn` (R84). -/
  | staZeroPage (nn : Byte)
  /-- 0x8D `STA $hhll` (R85). -/
  | staAbsolute (hhll : Word)
  /-- 0x91 `STA ($nn),Y` (R86). -/
  | staIndirectIndexed (nn : Byte)
  /-- 0x95 `STA $nn,X` (R87). -/
  | staZeroPageX (nn : Byte)
  /-- 0x99 `STA $hhll,Y` (R88). -/
  | staAbsoluteY (hhll : Word)
  /-- 0x9D `STA $hhll,X` (R89). -/
  | staAbsoluteX (hhll : Word)
  deriving DecidableEq, Repr

end Sys2Proof
end

