-- ==== Sys2Proof/WellFormed.lean ====
section
/-! DEFINITION. What a well-formed instruction and a loadable image are. Operand widths are in the
types; what is left to check is that the (operation, mode) pair is one the decoder can produce
(40_addressing_modes.md R72, 93_implementation_defined.md I4), and that the image fits
(70_reset_and_hazards.md R113). -/

namespace Sys2Proof

/-- The reachability table R72: the (operation, mode) pairs some opcode encodes. -/
def admitted : Op → Mode → Bool
  | .lda, .immediate => true
  | .lda, .zeroPage => true
  | .lda, .zeroPageX => true
  | .lda, .absolute => true
  | .lda, .absoluteX => true
  | .lda, .absoluteY => true
  | .lda, .indexedIndirect => true
  | .lda, .indirectIndexed => true
  | .lda, .zeroPageY => false
  | .lda, .relative => false
  | .lda, .accumulator => false
  | .lda, .indirect => false
  | .sta, .immediate => false
  | .sta, .zeroPage => true
  | .sta, .zeroPageX => true
  | .sta, .absolute => true
  | .sta, .absoluteX => true
  | .sta, .absoluteY => true
  | .sta, .indexedIndirect => true
  | .sta, .indirectIndexed => true
  | .sta, .zeroPageY => false
  | .sta, .relative => false
  | .sta, .accumulator => false
  | .sta, .indirect => false

/-- An instruction is well formed when the pair it stands for is admitted. -/
def Instr.wf : Instr → Bool
  | .ldaIndexedIndirect _ => admitted .lda .indexedIndirect
  | .ldaZeroPage _ => admitted .lda .zeroPage
  | .ldaImmediate _ => admitted .lda .immediate
  | .ldaAbsolute _ => admitted .lda .absolute
  | .ldaIndirectIndexed _ => admitted .lda .indirectIndexed
  | .ldaZeroPageX _ => admitted .lda .zeroPageX
  | .ldaAbsoluteY _ => admitted .lda .absoluteY
  | .ldaAbsoluteX _ => admitted .lda .absoluteX
  | .staIndexedIndirect _ => admitted .sta .indexedIndirect
  | .staZeroPage _ => admitted .sta .zeroPage
  | .staAbsolute _ => admitted .sta .absolute
  | .staIndirectIndexed _ => admitted .sta .indirectIndexed
  | .staZeroPageX _ => admitted .sta .zeroPageX
  | .staAbsoluteY _ => admitted .sta .absoluteY
  | .staAbsoluteX _ => admitted .sta .absoluteX

/-- The capacity check of R113: the image is no longer than ROM. -/
def imageFits (image : List Byte) : Bool := image.length ≤ Config.romSize

end Sys2Proof
end

