-- ==== Sys2Proof/Decode.lean ====
section
/-! DEFINITION. The opcode decoder (30_encoding.md R46 to R56), then the encoder written from the
opcode map R52, and the bit-field and byte-order helpers both use. -/

namespace Sys2Proof

/-! ### Bytes and words -/

/-- `zext_16` (00_scope.md R8). -/
def zext16 (b : Byte) : Word := b.setWidth 16

/-- `sext_16` (00_scope.md R8). -/
def sext16 (b : Byte) : Word := b.signExtend 16

/-- `hi8 : lo8` (00_scope.md R8). -/
def wordOf (hi lo : Byte) : Word := hi ++ lo

/-- `w[7:0]`. -/
def lowByte (w : Word) : Byte := w.setWidth 8

/-- `w[15:8]`. -/
def highByte (w : Word) : Byte := w.extractLsb' 8 8

/-! ### Decode -/

/-- `cc = o[1:0]`, the group (R46). -/
def fieldCc (o : Byte) : BitVec 2 := o.extractLsb' 0 2

/-- `bbb = o[4:2]`, the mode selector (R46). -/
def fieldBbb (o : Byte) : BitVec 3 := o.extractLsb' 2 3

/-- `aaa = o[7:5]`, the operation selector (R46). -/
def fieldAaa (o : Byte) : BitVec 3 := o.extractLsb' 5 3

/-- `GROUP01_MODE[bbb]` (R48), read bit by bit from bit 2 of bbb down. -/
def group01Mode (bbb : BitVec 3) : Mode :=
  match bbb.getLsbD 2, bbb.getLsbD 1, bbb.getLsbD 0 with
  | false, false, false => .indexedIndirect
  | false, false, true => .zeroPage
  | false, true, false => .immediate
  | false, true, true => .absolute
  | true, false, false => .indirectIndexed
  | true, false, true => .zeroPageX
  | true, true, false => .absoluteY
  | true, true, true => .absoluteX

/-- The operation lookup of group 01 (R49): six of the eight values have no entry. -/
def group01Op (aaa : BitVec 3) : Option Op :=
  if aaa = 0b101#3 then some .lda
  else if aaa = 0b100#3 then some .sta
  else none

/-- `decode(o)` (R51): total on the 256 opcode bytes, reading nothing but the byte. -/
def decodeOpcode (o : Byte) : Option (Op × Mode) :=
  if fieldCc o ≠ 0b01#2 then none
  else
    match group01Op (fieldAaa o) with
    | none => none
    | some .lda => some (.lda, group01Mode (fieldBbb o))
    | some .sta =>
      if group01Mode (fieldBbb o) = .immediate then none
      else some (.sta, group01Mode (fieldBbb o))

/-- `length(op, mode)` (R54). For both operations it depends on the mode alone. -/
def instrLength (_op : Op) : Mode → Nat
  | .accumulator => 1
  | .absolute => 3
  | .absoluteX => 3
  | .absoluteY => 3
  | .indirect => 3
  | .immediate => 2
  | .zeroPage => 2
  | .zeroPageX => 2
  | .zeroPageY => 2
  | .indexedIndirect => 2
  | .indirectIndexed => 2
  | .relative => 2

/-- The instruction of a decoded pair and its operand (R52); none for a pair decode cannot produce
(93_implementation_defined.md I4). An F2 operand is the low byte. -/
def buildInstr : Op → Mode → Word → Option Instr
  | .lda, .indexedIndirect, w => some (.ldaIndexedIndirect (lowByte w))
  | .lda, .zeroPage, w => some (.ldaZeroPage (lowByte w))
  | .lda, .immediate, w => some (.ldaImmediate (lowByte w))
  | .lda, .absolute, w => some (.ldaAbsolute w)
  | .lda, .indirectIndexed, w => some (.ldaIndirectIndexed (lowByte w))
  | .lda, .zeroPageX, w => some (.ldaZeroPageX (lowByte w))
  | .lda, .absoluteY, w => some (.ldaAbsoluteY w)
  | .lda, .absoluteX, w => some (.ldaAbsoluteX w)
  | .lda, .zeroPageY, _ => none
  | .lda, .relative, _ => none
  | .lda, .accumulator, _ => none
  | .lda, .indirect, _ => none
  | .sta, .indexedIndirect, w => some (.staIndexedIndirect (lowByte w))
  | .sta, .zeroPage, w => some (.staZeroPage (lowByte w))
  | .sta, .immediate, _ => none
  | .sta, .absolute, w => some (.staAbsolute w)
  | .sta, .indirectIndexed, w => some (.staIndirectIndexed (lowByte w))
  | .sta, .zeroPageX, w => some (.staZeroPageX (lowByte w))
  | .sta, .absoluteY, w => some (.staAbsoluteY w)
  | .sta, .absoluteX, w => some (.staAbsoluteX w)
  | .sta, .zeroPageY, _ => none
  | .sta, .relative, _ => none
  | .sta, .accumulator, _ => none
  | .sta, .indirect, _ => none

/-- Operand assembly (R55), low byte first (20_memory.md R36): the operand of an instruction whose
length is `len`, and the bytes after it; none when the bytes run out. -/
def takeOperand (len : Nat) (bytes : List Byte) : Option (Word × List Byte) :=
  match len, bytes with
  | 2, low :: rest => some (zext16 low, rest)
  | 3, low :: high :: rest => some (wordOf high low, rest)
  | 1, rest => some (0#16, rest)
  | _, _ => none

/-- Why bytes are no instruction. -/
inductive Reject where
  /-- There is no opcode byte. -/
  | noOpcode
  /-- The opcode byte has no entry (R53). -/
  | unimplemented (opcode : Byte)
  /-- The opcode has an entry and its operand bytes are missing. -/
  | operandMissing (op : Op) (mode : Mode)
  /-- No instruction has this operation and mode (I4; no opcode decodes to such a pair). -/
  | noSuchPair (op : Op) (mode : Mode)
  deriving DecidableEq, Repr

/-- Decode the first instruction of a byte sequence: the instruction and the bytes after it, or the
reason there is none. -/
def decode : List Byte → Except Reject (Instr × List Byte)
  | [] => .error .noOpcode
  | o :: bytes =>
    match decodeOpcode o with
    | none => .error (.unimplemented o)
    | some (op, mode) =>
      match takeOperand (instrLength op mode) bytes with
      | none => .error (.operandMissing op mode)
      | some (operand, rest) =>
        match buildInstr op mode operand with
        | none => .error (.noSuchPair op mode)
        | some i => .ok (i, rest)

/-- The `nbits` low bits of `w`, laid out as the instruction stream holds them: three bytes, the
first at the lowest offset, zero above `nbits`. -/
def tableBytes (nbits w : Nat) : List Byte :=
  let v := w % 2 ^ nbits
  [BitVec.ofNat 8 v, BitVec.ofNat 8 (v / 256), BitVec.ofNat 8 (v / 65536)]

/-- The instruction the decoder reads from a word of the opcode table. -/
def decodeTableWord (nbits w : Nat) : Option Instr :=
  match decode (tableBytes nbits w) with
  | .ok (i, _) => some i
  | .error _ => none

/-! ### The instruction's parts -/

/-- The operation of an instruction (R52). -/
def Instr.op : Instr → Op
  | .ldaIndexedIndirect _ => .lda
  | .ldaZeroPage _ => .lda
  | .ldaImmediate _ => .lda
  | .ldaAbsolute _ => .lda
  | .ldaIndirectIndexed _ => .lda
  | .ldaZeroPageX _ => .lda
  | .ldaAbsoluteY _ => .lda
  | .ldaAbsoluteX _ => .lda
  | .staIndexedIndirect _ => .sta
  | .staZeroPage _ => .sta
  | .staAbsolute _ => .sta
  | .staIndirectIndexed _ => .sta
  | .staZeroPageX _ => .sta
  | .staAbsoluteY _ => .sta
  | .staAbsoluteX _ => .sta

/-- The addressing mode of an instruction (R52). -/
def Instr.mode : Instr → Mode
  | .ldaIndexedIndirect _ => .indexedIndirect
  | .ldaZeroPage _ => .zeroPage
  | .ldaImmediate _ => .immediate
  | .ldaAbsolute _ => .absolute
  | .ldaIndirectIndexed _ => .indirectIndexed
  | .ldaZeroPageX _ => .zeroPageX
  | .ldaAbsoluteY _ => .absoluteY
  | .ldaAbsoluteX _ => .absoluteX
  | .staIndexedIndirect _ => .indexedIndirect
  | .staZeroPage _ => .zeroPage
  | .staAbsolute _ => .absolute
  | .staIndirectIndexed _ => .indirectIndexed
  | .staZeroPageX _ => .zeroPageX
  | .staAbsoluteY _ => .absoluteY
  | .staAbsoluteX _ => .absoluteX

/-- The operand of an instruction as a u16: `operand_word`, or `operand_low` with zero above (R55). -/
def Instr.operand : Instr → Word
  | .ldaIndexedIndirect nn => zext16 nn
  | .ldaZeroPage nn => zext16 nn
  | .ldaImmediate nn => zext16 nn
  | .ldaAbsolute hhll => hhll
  | .ldaIndirectIndexed nn => zext16 nn
  | .ldaZeroPageX nn => zext16 nn
  | .ldaAbsoluteY hhll => hhll
  | .ldaAbsoluteX hhll => hhll
  | .staIndexedIndirect nn => zext16 nn
  | .staZeroPage nn => zext16 nn
  | .staAbsolute hhll => hhll
  | .staIndirectIndexed nn => zext16 nn
  | .staZeroPageX nn => zext16 nn
  | .staAbsoluteY hhll => hhll
  | .staAbsoluteX hhll => hhll

/-- The length in bytes of an instruction (R54). -/
def Instr.length (i : Instr) : Nat := instrLength i.op i.mode

/-! ### Encode -/

/-- The opcode byte of an instruction: the map R52. -/
def Instr.opcode : Instr → Byte
  | .staIndexedIndirect _ => 0x81#8
  | .staZeroPage _ => 0x85#8
  | .staAbsolute _ => 0x8D#8
  | .staIndirectIndexed _ => 0x91#8
  | .staZeroPageX _ => 0x95#8
  | .staAbsoluteY _ => 0x99#8
  | .staAbsoluteX _ => 0x9D#8
  | .ldaIndexedIndirect _ => 0xA1#8
  | .ldaZeroPage _ => 0xA5#8
  | .ldaImmediate _ => 0xA9#8
  | .ldaAbsolute _ => 0xAD#8
  | .ldaIndirectIndexed _ => 0xB1#8
  | .ldaZeroPageX _ => 0xB5#8
  | .ldaAbsoluteY _ => 0xB9#8
  | .ldaAbsoluteX _ => 0xBD#8

/-- Format F2: the opcode and `operand_low` (R45). -/
def encodeF2 (opcode operandLow : Byte) : List Byte := [opcode, operandLow]

/-- Format F3: the opcode and `operand_word`, low byte first (R45). -/
def encodeF3 (opcode : Byte) (operandWord : Word) : List Byte :=
  [opcode, lowByte operandWord, highByte operandWord]

/-- The bytes of an instruction, in instruction-stream order (R45, R52). -/
def encode (i : Instr) : List Byte :=
  match i with
  | .ldaIndexedIndirect nn => encodeF2 i.opcode nn
  | .ldaZeroPage nn => encodeF2 i.opcode nn
  | .ldaImmediate nn => encodeF2 i.opcode nn
  | .ldaAbsolute hhll => encodeF3 i.opcode hhll
  | .ldaIndirectIndexed nn => encodeF2 i.opcode nn
  | .ldaZeroPageX nn => encodeF2 i.opcode nn
  | .ldaAbsoluteY hhll => encodeF3 i.opcode hhll
  | .ldaAbsoluteX hhll => encodeF3 i.opcode hhll
  | .staIndexedIndirect nn => encodeF2 i.opcode nn
  | .staZeroPage nn => encodeF2 i.opcode nn
  | .staAbsolute hhll => encodeF3 i.opcode hhll
  | .staIndirectIndexed nn => encodeF2 i.opcode nn
  | .staZeroPageX nn => encodeF2 i.opcode nn
  | .staAbsoluteY hhll => encodeF3 i.opcode hhll
  | .staAbsoluteX hhll => encodeF3 i.opcode hhll

end Sys2Proof
end

