-- ==== Sys2Proof/Machine/State.lean ====
section
/-! DEFINITION. The state of CORE (10_state.md, 20_memory.md R29 and R30), the reasons a step can
stop, the state after reset, and the named updates of the state. -/

namespace Sys2Proof.Machine

/-- The run state (10_state.md R25). -/
inductive RunState where
  | running
  | halted
  deriving DecidableEq, Repr

/-- The halt record (10_state.md R26): its kind, with the fields the record holds for that kind. -/
inductive HaltRecord where
  /-- The normal end: PC left the program region (42_fetch_execute.md R91). -/
  | endOfProgram (pc : Word)
  /-- The opcode byte at PC has no entry (60_exceptions.md R102). -/
  | unimplementedOpcode (pc : Word) (opcode : Byte)
  /-- A store resolved to a ROM address (60_exceptions.md R103). -/
  | romWriteViolation (pc : Word) (opcode : Byte) (address : Word)
  deriving DecidableEq, Repr

/-- Why there is no next state. -/
inductive Fault where
  /-- Answered by `step` in a Halted state: from Halted no step is enabled (42_fetch_execute.md R98,
  90_conflicts.md C15). Safe: nothing is claimed of a step the spec does not give. -/
  | halted
  /-- Answered by `initialise` for an image longer than ROM: no machine state is produced
  (60_exceptions.md R101). Safe: the spec gives this error. -/
  | imageLoadError
  deriving DecidableEq, Repr

/-- Why the model gives an instruction no meaning. -/
inductive Refusal where
  /-- Answered by `exec` for an instruction that has no meaning in the model. No arm does so. Safe. -/
  | notModelled (mnemonic : String)
  deriving DecidableEq, Repr

/-- Bytes by address, the addresses strictly rising. -/
abbrev Memory := List Host.Cell

/-- The machine: the register file (R13 to R19), the two arrays (R29, R30), the length of the loaded
image (00_scope.md R7), and the controller's run state and halt record (R25, R26). -/
structure State where
  /-- Accumulator A (R14). -/
  a : Byte
  /-- Index register X (R15). -/
  x : Byte
  /-- Index register Y (R16). -/
  y : Byte
  /-- Stack pointer SP (R18). -/
  sp : Byte
  /-- Status register P (R19). -/
  p : Byte
  /-- Program counter PC, a ROM offset (R17). -/
  pc : Word
  /-- ROM (20_memory.md R29): the bytes the launch fixes. An offset not listed holds `Config.romPad`. -/
  rom : Memory
  /-- IMAGE_SIZE: the program region is the ROM offsets below it (42_fetch_execute.md R90). -/
  imageSize : Nat
  /-- RAM (20_memory.md R30): the bytes that are not 0x00. -/
  ram : Memory
  /-- The run state (R25). -/
  run : RunState
  /-- The halt record, absent while Running (R26). -/
  halt : Option HaltRecord
  deriving DecidableEq, Repr

/-- The machine right after reset, with no image loaded (R27): every register zero, PC at ENTRY,
RAM zeroed, Running, no halt record; every ROM byte is an OPEN byte of ROM_PAD (log entries 1, 2, 3). -/
def State.reset : State where
  a := 0x00#8
  x := 0x00#8
  y := 0x00#8
  sp := 0x00#8
  p := 0x00#8
  pc := Config.entry
  rom := []
  imageSize := 0
  ram := []
  run := .running
  halt := none

/-- `A <- v`. -/
def State.setA (v : Byte) (s : State) : State := { s with a := v }

/-- `P <- v`. -/
def State.setP (v : Byte) (s : State) : State := { s with p := v }

/-- `PC <- v`. -/
def State.setPc (v : Word) (s : State) : State := { s with pc := v }

/-- RAM becomes `m`. -/
def State.setRam (m : Memory) (s : State) : State := { s with ram := m }

/-- ROM becomes `m`, with the first `size` bytes the image. -/
def State.setRom (m : Memory) (size : Nat) (s : State) : State := { s with rom := m, imageSize := size }

/-- `run <- Halted; halt <- r`. -/
def State.setHalted (r : HaltRecord) (s : State) : State := { s with run := .halted, halt := some r }

/-- `run <- Running; halt <- empty`. -/
def State.setRunning (s : State) : State := { s with run := .running, halt := none }

end Sys2Proof.Machine
end

