-- ==== Sys2Proof/Machine/Flags.lean ====
section
/-! DEFINITION. The status register's flags (10_state.md R19), the flag primitives (R20) and the
sign/zero classification (R21). -/

namespace Sys2Proof.Machine

/-- The seven named flags of P (R19); bit 5 is reserved and has no name. -/
inductive Flag where
  | carry
  | zero
  | interruptDisable
  | decimal
  | break
  | overflow
  | negative
  deriving DecidableEq, Repr

/-- The bit of P that holds a flag (R19). -/
def Flag.bit : Flag → Nat
  | .carry => 0
  | .zero => 1
  | .interruptDisable => 2
  | .decimal => 3
  | .break => 4
  | .overflow => 6
  | .negative => 7

/-- `set(f)`: `P.f <- 1` (R20). -/
def setFlag (f : Flag) (s : State) : State := s.setP (s.p ||| BitVec.twoPow 8 f.bit)

/-- `clear(f)`: `P.f <- 0` (R20). -/
def clearFlag (f : Flag) (s : State) : State := s.setP (s.p &&& ~~~BitVec.twoPow 8 f.bit)

/-- `test(f)`: `P.f` (R20). -/
def testFlag (f : Flag) (s : State) : Bool := s.p.getLsbD f.bit

/-- `classify_sign_zero(v)` (R21), in the rule's order. -/
def classifySignZero (v : Byte) (s : State) : State :=
  let s := clearFlag .negative (clearFlag .zero s)
  if v.getLsbD 7 then setFlag .negative s
  else if v = 0x00#8 then setFlag .zero s
  else s

end Sys2Proof.Machine
end

