-- ==== Sys2Proof/Machine/Memory.lean ====
section
/-! DEFINITION. The two byte arrays (20_memory.md R29, R30) over lists of cells: lookup, insertion,
removal, and the canonical forms. -/

namespace Sys2Proof.Machine

/-- The byte listed at `k`, if one is. -/
def Memory.lookup (k : Nat) : Memory → Option Byte
  | [] => none
  | (j, b) :: m => if j = k then some b else Memory.lookup k m

/-- List `v` at `k`, in place of any byte listed there. -/
def Memory.insert (k : Nat) (v : Byte) : Memory → Memory
  | [] => [(k, v)]
  | (j, b) :: m =>
    if k < j then (k, v) :: (j, b) :: m
    else if k = j then (k, v) :: m
    else (j, b) :: Memory.insert k v m

/-- List nothing at `k`. -/
def Memory.erase (k : Nat) : Memory → Memory
  | [] => []
  | (j, b) :: m => if j = k then Memory.erase k m else (j, b) :: Memory.erase k m

/-- Every address listed is at least `low`, and they rise strictly. -/
def Memory.risingFrom (low : Nat) : Memory → Bool
  | [] => true
  | (j, _) :: m => low ≤ j && Memory.risingFrom (j + 1) m

/-- What a RAM byte that nothing has written reads as: 0x00 ("RAM zeroed"; R30, R42). -/
def ramReset : Byte := 0x00#8

/-- The canonical form of RAM: addresses strictly rising and inside RAM, no byte equal to what an
unlisted address reads as. -/
def Memory.wf (m : Memory) : Bool :=
  Memory.risingFrom 0 m && m.all fun c => c.1 < Config.ramSize && c.2 != ramReset

/-- The canonical form of ROM: offsets strictly rising and inside ROM. An unlisted offset holds a
free byte, which no listed byte is. -/
def Memory.romWf (m : Memory) : Bool :=
  Memory.risingFrom 0 m && m.all fun c => c.1 < Config.romSize

/-- `RAM[k]` (R30). -/
def ramByte (m : Memory) (k : Nat) : Byte := (Memory.lookup k m).getD ramReset

/-- `RAM[k] <- v`, keeping the canonical form. -/
def ramStore (k : Nat) (v : Byte) (m : Memory) : Memory :=
  if v = ramReset then Memory.erase k m else Memory.insert k v m

/-- `ROM[k]` (R29): the byte the launch fixes there, or else the OPEN byte of ROM_PAD. -/
def romByte (m : Memory) (k : Nat) : Byte := (Memory.lookup k m).getD (Config.romPad k)

/-- Place bytes in ROM at consecutive offsets from `k` on, taken mod ROM_SIZE. Only loading does so;
no step writes ROM (R29). -/
def romPlace (k : Nat) : List Byte → Memory → Memory
  | [], m => m
  | b :: bs, m => romPlace (k + 1) bs (Memory.insert (k % Config.romSize) b m)

end Sys2Proof.Machine
end

