-- ==== Sys2Proof/Machine/Ops.lean ====
section
/-! DEFINITION. The shared operations of CORE: the memory primitives (20_memory.md R31 to R37),
raising an error (00_scope.md R11), loading and storing the accumulator (41_load_store.md R73, R82),
the controller's fetch and PC advance (42_fetch_execute.md R91 to R97), and initialisation
(70_reset_and_hazards.md R113). -/

namespace Sys2Proof.Machine

/-! ### Errors -/

/-- `raise E(info)` (00_scope.md R11): the one way a step halts. It is applied to the state the step
began in, so nothing else of the step is committed. There is no trap entry beyond this and no return
(60_exceptions.md R104, R105). -/
def raise (r : HaltRecord) (s : State) : State := s.setHalted r

/-! ### Memory primitives -/

/-- `FetchByte(a)` (R31): the instruction-fetch port, `ROM[a mod ROM_SIZE]`. -/
def fetchByte (s : State) (a : Word) : Byte := romByte s.rom (a.toNat % Config.romSize)

/-- `MemRead(a, 1)` (R33), over the data address map R32. -/
def memRead (s : State) (a : Word) : Byte :=
  if a.toNat < Config.dataSplit then ramByte s.ram a.toNat
  else romByte s.rom (a.toNat - Config.dataSplit)

/-- `MemWrite(a, 1, v)` (R34): one RAM byte, or RomWriteViolation with the opcode at PC. -/
def memWrite (a : Word) (v : Byte) (s : State) : State :=
  if a.toNat < Config.dataSplit then s.setRam (ramStore a.toNat v s.ram)
  else raise (.romWriteViolation s.pc (fetchByte s s.pc) a) s

/-- Where `PtrRead16(p)` reads the high byte (R37): the next byte of the same page. -/
def pointerHighAddress (p : Word) : Word := (p &&& 0xFF00#16) ||| ((p + 1#16) &&& 0x00FF#16)

/-- `PtrRead16(p)` (R37), low byte first, wrapping within the page. -/
def ptrRead16 (s : State) (p : Word) : Word := wordOf (memRead s (pointerHighAddress p)) (memRead s p)

/-! ### Load and store -/

/-- `A <- v; classify_sign_zero(v)` (R73). -/
def loadAccumulator (v : Byte) (s : State) : State := classifySignZero v (s.setA v)

/-- `MemWrite(EA, 1, A)` (R82). -/
def storeAccumulator (ea : Word) (s : State) : State := memWrite ea s.a s

/-! ### The controller -/

/-- PC is outside the program region (R91). -/
def outsideProgram (s : State) : Bool := s.imageSize ≤ s.pc.toNat

/-- The normal end of a run (R91). -/
def endProgram (s : State) : State := raise (.endOfProgram s.pc) s

/-- The halt on an opcode byte with no entry (R93, 60_exceptions.md R102). -/
def unimplemented (s : State) : State := raise (.unimplementedOpcode s.pc (fetchByte s s.pc)) s

/-- `n` bytes of the instruction stream from `a` on, the addresses summed as u16 (R94). -/
def fetchBytes (s : State) (a : Word) : Nat → List Byte
  | 0 => []
  | n + 1 => fetchByte s a :: fetchBytes s (a + 1#16) n

/-- The bytes of the instruction at PC: the opcode, and its operand bytes if it has an entry (R92,
R94; 30_encoding.md R56). -/
def instrBytes (s : State) : List Byte :=
  match decodeOpcode (fetchByte s s.pc) with
  | none => fetchBytes s s.pc 1
  | some (op, mode) => fetchBytes s s.pc (instrLength op mode)

/-- The instruction at PC, or why there is none (R92 to R94). -/
def fetch (s : State) : Except Reject Instr :=
  match decode (instrBytes s) with
  | .ok (i, _) => .ok i
  | .error e => .error e

/-- `PC <- PC +16 L` (R97). -/
def advancePc (len : Nat) (s : State) : State := s.setPc (s.pc + BitVec.ofNat 16 len)

/-- The end of a step whose instruction `i` left the state `t`: PC moves past the instruction, unless
the instruction raised (R96: a raise discards the PC advance). -/
def finish (i : Instr) (t : State) : State :=
  match t.run with
  | .running => advancePc i.length t
  | .halted => t

/-! ### Initialisation -/

/-- `init(IMAGE, ROM_PAD)` (70_reset_and_hazards.md R113): the state of 10_state.md R27, or
ImageLoadError. A `pad` shorter than ROM_SIZE - IMAGE_SIZE leaves the ROM bytes past it free, and
bytes of `pad` past the end of ROM are no part of ROM_PAD (log entry 5). -/
def initialise (image pad : List Byte) : Host.Outcome State Fault Refusal :=
  if imageFits image then
    .next (State.reset.setRom
      (romPlace 0 (image ++ pad.take (Config.romSize - image.length)) []) image.length)
  else .fault .imageLoadError

/-- Put instruction bytes into the image at PC and make the machine ready to fetch them: Running, PC
at the ROM offset the fetch port reads for it, and IMAGE_SIZE past the bytes, or the whole of ROM
where they wrap. It stands for the loading of an image from outside (log entry 3). -/
def placeInstr (bytes : List Byte) (s : State) : State :=
  let k := s.pc.toNat % Config.romSize
  ((s.setRom (romPlace k bytes s.rom) (max s.imageSize (min Config.romSize (k + bytes.length)))).setPc
    (BitVec.ofNat 16 k)).setRunning

end Sys2Proof.Machine
end

