-- ==== Sys2Proof/Machine/Operands.lean ====
section
/-! DEFINITION. The addressing-mode resolver (40_addressing_modes.md): one effective-address function
for each mode that has one, and the resolver over the twelve tags. None writes anything. -/

namespace Sys2Proof.Machine

/-- Absolute (R60). -/
def eaAbsolute (w : Word) (_s : State) : Word := w

/-- Absolute-X (R61): a 16-bit sum. -/
def eaAbsoluteX (w : Word) (s : State) : Word := w + zext16 s.x

/-- Absolute-Y (R62): a 16-bit sum. -/
def eaAbsoluteY (w : Word) (s : State) : Word := w + zext16 s.y

/-- Indexed-indirect (R64): X is added, within page 0, before the indirection. -/
def eaIndexedIndirect (nn : Byte) (s : State) : Word := ptrRead16 s (zext16 (nn + s.x))

/-- Indirect-indexed (R65): Y is added, as a 16-bit sum, after the indirection. -/
def eaIndirectIndexed (nn : Byte) (s : State) : Word := ptrRead16 s (zext16 nn) + zext16 s.y

/-- Zero-page (R66). -/
def eaZeroPage (nn : Byte) (_s : State) : Word := zext16 nn

/-- Zero-page-X (R67): the sum stays in page 0. -/
def eaZeroPageX (nn : Byte) (s : State) : Word := zext16 (nn + s.x)

/-- Zero-page-Y (R68): the sum stays in page 0. No admitted opcode uses it. -/
def eaZeroPageY (nn : Byte) (s : State) : Word := zext16 (nn + s.y)

/-- Relative (R69): from the address after the two-byte instruction. No admitted opcode uses it. -/
def eaRelative (nn : Byte) (s : State) : Word := (s.pc + 2#16) + sext16 nn

/-- Indirect (R71). No admitted opcode uses it. -/
def eaIndirect (w : Word) (s : State) : Word := ptrRead16 s w

/-- `resolve(mode, operand)` (R59). A mode of format F2 takes the low byte of the operand. Immediate
and accumulator have no effective address: the resolver is not invoked for them (R63, R70). -/
def resolve (mode : Mode) (operand : Word) (s : State) : Option Word :=
  match mode with
  | .immediate => none
  | .accumulator => none
  | .absolute => some (eaAbsolute operand s)
  | .absoluteX => some (eaAbsoluteX operand s)
  | .absoluteY => some (eaAbsoluteY operand s)
  | .indirect => some (eaIndirect operand s)
  | .zeroPage => some (eaZeroPage (lowByte operand) s)
  | .zeroPageX => some (eaZeroPageX (lowByte operand) s)
  | .zeroPageY => some (eaZeroPageY (lowByte operand) s)
  | .indexedIndirect => some (eaIndexedIndirect (lowByte operand) s)
  | .indirectIndexed => some (eaIndirectIndexed (lowByte operand) s)
  | .relative => some (eaRelative (lowByte operand) s)

end Sys2Proof.Machine
end

