-- ==== Sys2Proof/Machine/Load.lean ====
section
/-! DEFINITION. LDA (41_load_store.md R73 to R81): one meaning for each opcode. It never halts and does not write PC. -/

namespace Sys2Proof.Machine

/-- 0xA1 `LDA ($nn,X)` (R74). -/
def execLdaIndexedIndirect (nn : Byte) (s : State) : Host.Outcome State Fault Refusal :=
  .next (loadAccumulator (memRead s (eaIndexedIndirect nn s)) s)

/-- 0xA5 `LDA $nn` (R75). -/
def execLdaZeroPage (nn : Byte) (s : State) : Host.Outcome State Fault Refusal :=
  .next (loadAccumulator (memRead s (eaZeroPage nn s)) s)

/-- 0xA9 `LDA #$nn` (R76): the operand byte is the value. -/
def execLdaImmediate (nn : Byte) (s : State) : Host.Outcome State Fault Refusal :=
  .next (loadAccumulator nn s)

/-- 0xAD `LDA $hhll` (R77). -/
def execLdaAbsolute (hhll : Word) (s : State) : Host.Outcome State Fault Refusal :=
  .next (loadAccumulator (memRead s (eaAbsolute hhll s)) s)

/-- 0xB1 `LDA ($nn),Y` (R78). -/
def execLdaIndirectIndexed (nn : Byte) (s : State) : Host.Outcome State Fault Refusal :=
  .next (loadAccumulator (memRead s (eaIndirectIndexed nn s)) s)

/-- 0xB5 `LDA $nn,X` (R79). -/
def execLdaZeroPageX (nn : Byte) (s : State) : Host.Outcome State Fault Refusal :=
  .next (loadAccumulator (memRead s (eaZeroPageX nn s)) s)

/-- 0xB9 `LDA $hhll,Y` (R80). -/
def execLdaAbsoluteY (hhll : Word) (s : State) : Host.Outcome State Fault Refusal :=
  .next (loadAccumulator (memRead s (eaAbsoluteY hhll s)) s)

/-- 0xBD `LDA $hhll,X` (R81). -/
def execLdaAbsoluteX (hhll : Word) (s : State) : Host.Outcome State Fault Refusal :=
  .next (loadAccumulator (memRead s (eaAbsoluteX hhll s)) s)

end Sys2Proof.Machine
end

