-- ==== Sys2Proof/Machine/Store.lean ====
section
/-! DEFINITION. STA (41_load_store.md R82 to R89): one meaning for each opcode. A ROM address raises
RomWriteViolation; a store that completes writes one RAM byte and no flag, and not PC. -/

namespace Sys2Proof.Machine

/-- 0x81 `STA ($nn,X)` (R83). -/
def execStaIndexedIndirect (nn : Byte) (s : State) : Host.Outcome State Fault Refusal :=
  .next (storeAccumulator (eaIndexedIndirect nn s) s)

/-- 0x85 `STA $nn` (R84). -/
def execStaZeroPage (nn : Byte) (s : State) : Host.Outcome State Fault Refusal :=
  .next (storeAccumulator (eaZeroPage nn s) s)

/-- 0x8D `STA $hhll` (R85). -/
def execStaAbsolute (hhll : Word) (s : State) : Host.Outcome State Fault Refusal :=
  .next (storeAccumulator (eaAbsolute hhll s) s)

/-- 0x91 `STA ($nn),Y` (R86). -/
def execStaIndirectIndexed (nn : Byte) (s : State) : Host.Outcome State Fault Refusal :=
  .next (storeAccumulator (eaIndirectIndexed nn s) s)

/-- 0x95 `STA $nn,X` (R87). -/
def execStaZeroPageX (nn : Byte) (s : State) : Host.Outcome State Fault Refusal :=
  .next (storeAccumulator (eaZeroPageX nn s) s)

/-- 0x99 `STA $hhll,Y` (R88). -/
def execStaAbsoluteY (hhll : Word) (s : State) : Host.Outcome State Fault Refusal :=
  .next (storeAccumulator (eaAbsoluteY hhll s) s)

/-- 0x9D `STA $hhll,X` (R89). -/
def execStaAbsoluteX (hhll : Word) (s : State) : Host.Outcome State Fault Refusal :=
  .next (storeAccumulator (eaAbsoluteX hhll s) s)

end Sys2Proof.Machine
end

