-- ==== Sys2Proof/Machine/Dispatch.lean ====
section
/-! DEFINITION. The dispatch of 42_fetch_execute.md R95: each instruction to exactly one meaning. -/

namespace Sys2Proof.Machine

def exec (i : Instr) (s : State) : Host.Outcome State Fault Refusal :=
  match i with
  | .ldaIndexedIndirect nn => Sys2Proof.Machine.execLdaIndexedIndirect nn s
  | .ldaZeroPage nn => Sys2Proof.Machine.execLdaZeroPage nn s
  | .ldaImmediate nn => Sys2Proof.Machine.execLdaImmediate nn s
  | .ldaAbsolute hhll => Sys2Proof.Machine.execLdaAbsolute hhll s
  | .ldaIndirectIndexed nn => Sys2Proof.Machine.execLdaIndirectIndexed nn s
  | .ldaZeroPageX nn => Sys2Proof.Machine.execLdaZeroPageX nn s
  | .ldaAbsoluteY hhll => Sys2Proof.Machine.execLdaAbsoluteY hhll s
  | .ldaAbsoluteX hhll => Sys2Proof.Machine.execLdaAbsoluteX hhll s
  | .staIndexedIndirect nn => Sys2Proof.Machine.execStaIndexedIndirect nn s
  | .staZeroPage nn => Sys2Proof.Machine.execStaZeroPage nn s
  | .staAbsolute hhll => Sys2Proof.Machine.execStaAbsolute hhll s
  | .staIndirectIndexed nn => Sys2Proof.Machine.execStaIndirectIndexed nn s
  | .staZeroPageX nn => Sys2Proof.Machine.execStaZeroPageX nn s
  | .staAbsoluteY hhll => Sys2Proof.Machine.execStaAbsoluteY hhll s
  | .staAbsoluteX hhll => Sys2Proof.Machine.execStaAbsoluteX hhll s

end Sys2Proof.Machine
end

