-- ==== Sys2Proof/Machine/Step.lean ====
section
/-! DEFINITION. The step of the controller (42_fetch_execute.md R96), and placing an instruction
where the step fetches it. -/

namespace Sys2Proof.Machine

/-- The complete step (R96). A halt transition is a next state; from Halted there is no step (R98). -/
def step (s : State) : Host.Outcome State Fault Refusal :=
  match s.run with
  | .halted => .fault .halted
  | .running =>
    if outsideProgram s then .next (endProgram s)
    else
      match fetch s with
      | .error _ => .next (unimplemented s)
      | .ok i =>
        match exec i s with
        | .next t => .next (finish i t)
        | .fault r => .fault r
        | .refused r => .refused r

/-- `s` with an instruction's bytes as the image bytes at PC, and what the fetch needs beside them:
the machine Running, PC inside ROM, and an image that reaches past the bytes (log entry 3). -/
def State.withFetchWord (s : State) (nbits w : Nat) : State :=
  placeInstr (tableBytes nbits w) s

end Sys2Proof.Machine
end

