-- ==== Sys2Proof/Safety.lean ====
section
/-! DEFINITION. The terms claims are stated in: the observation of a run and its two classes of end
(42_fetch_execute.md R99), what a load and a store change (41_load_store.md R73, R82), and the
invariants of the machine. -/

namespace Sys2Proof.Machine

/-! ### Observation -/

/-- The `pc` field of a halt record (10_state.md R26). -/
def HaltRecord.pc : HaltRecord → Word
  | .endOfProgram pc => pc
  | .unimplementedOpcode pc _ => pc
  | .romWriteViolation pc _ _ => pc

/-- The observation of a run (R99): the register file, RAM, and the halt record. It is also the
status output and the register observation of 00_scope.md R6. -/
structure Observation where
  a : Byte
  x : Byte
  y : Byte
  sp : Byte
  p : Byte
  pc : Word
  ram : Memory
  halt : Option HaltRecord
  deriving DecidableEq, Repr

/-- What can be observed of a state. Observing changes nothing. -/
def observe (s : State) : Observation where
  a := s.a
  x := s.x
  y := s.y
  sp := s.sp
  p := s.p
  pc := s.pc
  ram := s.ram
  halt := s.halt

/-- The run ended normally: `halt.kind = EndOfProgram` (R99). -/
def NormalEnd (s : State) : Prop := s.run = .halted ∧ ∃ pc, s.halt = some (.endOfProgram pc)

/-- The run ended in one of the two faults (R99). -/
def FaultEnd (s : State) : Prop :=
  s.run = .halted ∧ ((∃ pc o, s.halt = some (.unimplementedOpcode pc o)) ∨
    ∃ pc o ea, s.halt = some (.romWriteViolation pc o ea))

/-! ### What an instruction changes -/

/-- `t` is `s` after `A <- v` and the classification of `v`: N is bit 7 of v, Z is `v = 0`, the other
six bits of P are kept, and nothing outside A and P differs (R73, 10_state.md R21). -/
def Loaded (v : Byte) (s t : State) : Prop :=
  t = { s with a := v, p := t.p } ∧
  t.p.getLsbD 7 = v.getLsbD 7 ∧ t.p.getLsbD 1 = decide (v = 0x00#8) ∧
  ∀ k < 8, k ≠ 7 → k ≠ 1 → t.p.getLsbD k = s.p.getLsbD k

/-- `t` is `s` after `RAM[ea] <- v`: the byte at `ea` reads as v, every other data address reads as
before, and nothing outside RAM differs (R82, 20_memory.md R34). -/
def Stored (ea : Word) (v : Byte) (s t : State) : Prop :=
  t = { s with ram := t.ram } ∧ memRead t ea = v ∧ ∀ b, b ≠ ea → memRead t b = memRead s b

/-- `t` is `s` halted with the record `r`, and nothing else differs (00_scope.md R11). -/
def HaltedWith (r : HaltRecord) (s t : State) : Prop := t = { s with run := .halted, halt := some r }

/-- The operand of the instruction at PC when its length is `len` (30_encoding.md R55). -/
def operandAtPc (s : State) (len : Nat) : Word :=
  if len = 3 then wordOf (fetchByte s (s.pc + 2#16)) (fetchByte s (s.pc + 1#16))
  else zext16 (fetchByte s (s.pc + 1#16))

/-! ### Invariants -/

/-- What initialisation establishes and every step keeps, whatever the image and the harness-supplied
register values. -/
structure Inv (s : State) : Prop where
  /-- RAM is in canonical form and inside its 32768 bytes (R30). -/
  ramWf : s.ram.wf = true
  /-- So is ROM (R29). -/
  romWf : s.rom.romWf = true
  /-- The image fits (70_reset_and_hazards.md R113). -/
  imageFits : s.imageSize ≤ Config.romSize
  /-- Every byte of the program region is an image byte, not a free one (R29). -/
  imageListed : ∀ k < s.imageSize, (Memory.lookup k s.rom).isSome = true
  /-- PC is at most two bytes past the program region, so it has not wrapped (R97). -/
  pcBound : s.pc.toNat ≤ s.imageSize + 2
  /-- The halt record is empty exactly while Running (10_state.md R26). -/
  haltIff : s.halt.isSome = true ↔ s.run = .halted

/-- What holds besides in a run from the initial state (10_state.md R15, R16, R18, R21, R22): the
registers no instruction writes are zero, and of P only N and Z can be set, not both. -/
structure RunInv (s : State) : Prop where
  /-- X is 0x00 (R15). -/
  xZero : s.x = 0x00#8
  /-- Y is 0x00 (R16). -/
  yZero : s.y = 0x00#8
  /-- SP is 0x00 (R18). -/
  spZero : s.sp = 0x00#8
  /-- C, I, D, B, V and bit 5 are 0, and N and Z are not both 1 (R21, R22). -/
  statusBits : s.p = 0x00#8 ∨ s.p = 0x02#8 ∨ s.p = 0x80#8

/-- The halt record says exactly why the machine halted, at the PC it still holds (R26,
60_exceptions.md R104). -/
def HaltExplained (s : State) : Prop :=
  match s.halt with
  | none => True
  | some (.endOfProgram pc) => pc = s.pc ∧ s.imageSize ≤ pc.toNat
  | some (.unimplementedOpcode pc o) =>
    pc = s.pc ∧ pc.toNat < s.imageSize ∧ o = fetchByte s pc ∧ decodeOpcode o = none
  | some (.romWriteViolation pc o ea) =>
    pc = s.pc ∧ pc.toNat < s.imageSize ∧ o = fetchByte s pc ∧ 0x8000 ≤ ea.toNat ∧
    ∃ mode, decodeOpcode o = some (.sta, mode) ∧
      resolve mode (operandAtPc s (instrLength .sta mode)) s = some ea

end Sys2Proof.Machine
end

