-- ==== Sys2Proof/Certificates/Slice0/Obligations.lean ====
section
/-! DEFINITION. The statements about CORE that the provers settle, from the numbered rules of spec/.
`R<n>` names a rule; `D<n>` names a decision of spec/92_eei_decisions.md that a rule rests on. -/

open Sys2Proof Sys2Proof.Machine

/-! ### Reset and initialisation -/

/-- 10_state.md R27 for a machine with no image: every register zero, PC at ENTRY, every RAM byte
0x00, Running, no halt record. ENTRY = 0 and SP = P = 0 are the spec's decisions D10, D11, D16;
IMAGE_SIZE = 0 is the model's choice (log entry 2). -/
def Obligations.ResetLeavesRegistersAndRamZero : Prop :=
  State.reset.a = 0x00#8 ∧ State.reset.x = 0x00#8 ∧ State.reset.y = 0x00#8 ∧
  State.reset.sp = 0x00#8 ∧ State.reset.p = 0x00#8 ∧ State.reset.pc = 0x0000#16 ∧
  State.reset.imageSize = 0 ∧ State.reset.run = .running ∧ State.reset.halt = none ∧
  ∀ a : Word, a.toNat < 0x8000 → memRead State.reset a = 0x00#8

/-- 70_reset_and_hazards.md R113: `init(IMAGE, ROM_PAD)` for every image that fits and every ROM_PAD,
and the refusal of one that does not; an empty image halts on the first step. ENTRY = 0 and SP = P = 0
are the spec's decisions D10, D11. -/
def Obligations.InitialisationBuildsTheInitialState : Prop :=
  ∀ image pad : List Byte,
    (32768 < image.length → initialise image pad = .fault .imageLoadError) ∧
    (image.length ≤ 32768 → pad.length = 32768 - image.length →
      ∃ s, initialise image pad = .next s ∧
        (∀ k (h : k < image.length), fetchByte s (BitVec.ofNat 16 k) = image[k]) ∧
        (∀ k (h : k < pad.length), fetchByte s (BitVec.ofNat 16 (image.length + k)) = pad[k]) ∧
        (∀ a : Word, a.toNat < 0x8000 → memRead s a = 0x00#8) ∧
        s.a = 0x00#8 ∧ s.x = 0x00#8 ∧ s.y = 0x00#8 ∧ s.sp = 0x00#8 ∧ s.p = 0x00#8 ∧
        s.pc = 0x0000#16 ∧ s.imageSize = image.length ∧ s.run = .running ∧ s.halt = none ∧
        (image = [] → ∃ t, step s = .next t ∧ HaltedWith (.endOfProgram 0x0000#16) s t))

/-- 60_exceptions.md R101: ImageLoadError is exactly the refusal of an image longer than 32768 bytes,
and no machine state is produced. -/
def Obligations.OversizedImageIsRefused : Prop :=
  ∀ image pad : List Byte, initialise image pad = .fault .imageLoadError ↔ 32768 < image.length

/-! ### Flags -/

/-- 10_state.md R20: `set`, `clear` and `test` of each flag act on that one bit of P (R19) and on
nothing else of the machine. -/
def Obligations.FlagPrimitivesActOnOneBit : Prop :=
  (∀ s : State,
    testFlag .carry s = s.p.getLsbD 0 ∧ testFlag .zero s = s.p.getLsbD 1 ∧
    testFlag .interruptDisable s = s.p.getLsbD 2 ∧ testFlag .decimal s = s.p.getLsbD 3 ∧
    testFlag .break s = s.p.getLsbD 4 ∧ testFlag .overflow s = s.p.getLsbD 6 ∧
    testFlag .negative s = s.p.getLsbD 7) ∧
  ∀ (f : Flag) (s : State),
    testFlag f (setFlag f s) = true ∧ testFlag f (clearFlag f s) = false ∧
    setFlag f s = { s with p := (setFlag f s).p } ∧
    clearFlag f s = { s with p := (clearFlag f s).p } ∧
    ∀ k < 8, k ≠ f.bit →
      (setFlag f s).p.getLsbD k = s.p.getLsbD k ∧ (clearFlag f s).p.getLsbD k = s.p.getLsbD k

/-- 10_state.md R21: the final values of `classify_sign_zero(v)`: N is bit 7 of v, Z is `v = 0`, never
both, neither for v in 0x01 to 0x7F, and every other bit of P and the rest of the machine are kept. -/
def Obligations.ClassificationSetsNegativeAndZero : Prop :=
  ∀ (v : Byte) (s t : State), t = classifySignZero v s →
    t = { s with p := t.p } ∧
    testFlag .negative t = v.getLsbD 7 ∧ testFlag .zero t = decide (v = 0x00#8) ∧
    ¬(testFlag .negative t = true ∧ testFlag .zero t = true) ∧
    (1 ≤ v.toNat → v.toNat ≤ 0x7F → testFlag .negative t = false ∧ testFlag .zero t = false) ∧
    ∀ k < 8, k ≠ 7 → k ≠ 1 → t.p.getLsbD k = s.p.getLsbD k

/-! ### Memory -/

/-- 20_memory.md R31 to R33: below 0x8000 the data port reads the RAM array; at and above it, it reads
the ROM array, the one the fetch port reads modulo 32768. The split and the wrap are the spec's
decisions D7 and D8. -/
def Obligations.DataPortAndFetchPortShareRom : Prop :=
  ∀ (s : State) (a : Word),
    (a.toNat < 0x8000 → memRead s a = ramByte s.ram a.toNat) ∧
    (0x8000 ≤ a.toNat → memRead s a = fetchByte s (a - 0x8000#16)) ∧
    fetchByte s a = romByte s.rom (a &&& 0x7FFF#16).toNat ∧
    fetchByte s (a + 0x8000#16) = fetchByte s a

/-- 20_memory.md R34: a data write below 0x8000 changes that one RAM byte and nothing else; at or above
it, it raises RomWriteViolation with PC, the opcode byte at PC and the address, and changes no byte. The
split and what else a refused write leaves are the spec's decisions D7 and D14. -/
def Obligations.DataWriteStoresOneByteOrRaises : Prop :=
  ∀ (s : State) (a : Word) (v : Byte),
    (a.toNat < 0x8000 → Stored a v s (memWrite a v s)) ∧
    (0x8000 ≤ a.toNat →
      HaltedWith (.romWriteViolation s.pc (fetchByte s s.pc) a) s (memWrite a v s) ∧
      (∀ b, memRead (memWrite a v s) b = memRead s b) ∧
      ∀ b, fetchByte (memWrite a v s) b = fetchByte s b)

/-- 20_memory.md R39: a write changes at most the byte at its address, only RAM bytes can be written,
and repeating a write leaves the same state. -/
def Obligations.RepeatedWriteLeavesTheSameState : Prop :=
  ∀ (s : State) (a : Word) (v : Byte),
    memWrite a v (memWrite a v s) = memWrite a v s ∧
    (∀ b, b ≠ a → memRead (memWrite a v s) b = memRead s b) ∧
    (∀ b, 0x8000 ≤ b.toNat → memRead (memWrite a v s) b = memRead s b) ∧
    ∀ b, fetchByte (memWrite a v s) b = fetchByte s b

/-- 20_memory.md R37: both bytes of a pointer come from the page of its low byte, the high byte from
the next offset modulo 256; for a zero-page pointer both addresses are in page 0. -/
def Obligations.PointerReadStaysInItsPage : Prop :=
  ∀ s : State,
    (∀ page off : Byte, ptrRead16 s (wordOf page off) =
      wordOf (memRead s (wordOf page (off + 1#8))) (memRead s (wordOf page off))) ∧
    ∀ off : Byte, ptrRead16 s (zext16 off) =
      wordOf (memRead s (zext16 (off + 1#8))) (memRead s (zext16 off))

/-! ### The resolver -/

/-- 40_addressing_modes.md R60, R61, R62: the three absolute modes take a two-byte operand; the index is
added as a 16-bit sum that wraps at 65536. -/
def Obligations.AbsoluteModesAddSixteenBits : Prop :=
  ∀ (op : Op) (w : Word) (s : State),
    instrLength op .absolute = 3 ∧ resolve .absolute w s = some w ∧
    instrLength op .absoluteX = 3 ∧
    (∃ ea, resolve .absoluteX w s = some ea ∧ ea.toNat = (w.toNat + s.x.toNat) % 65536) ∧
    instrLength op .absoluteY = 3 ∧
    ∃ ea, resolve .absoluteY w s = some ea ∧ ea.toNat = (w.toNat + s.y.toNat) % 65536

/-- 40_addressing_modes.md R66, R67, R68: the three zero-page modes take a one-byte operand; the index
is added modulo 256, so the address stays in page 0. -/
def Obligations.ZeroPageModesStayInPageZero : Prop :=
  ∀ (op : Op) (nn : Byte) (s : State),
    instrLength op .zeroPage = 2 ∧
    (∃ ea, resolve .zeroPage (zext16 nn) s = some ea ∧ ea.toNat = nn.toNat) ∧
    instrLength op .zeroPageX = 2 ∧
    (∃ ea, resolve .zeroPageX (zext16 nn) s = some ea ∧
      ea.toNat = (nn.toNat + s.x.toNat) % 256) ∧
    instrLength op .zeroPageY = 2 ∧
    ∃ ea, resolve .zeroPageY (zext16 nn) s = some ea ∧
      ea.toNat = (nn.toNat + s.y.toNat) % 256

/-- 40_addressing_modes.md R64: indexed-indirect adds X modulo 256 before the indirection, and reads
the pointer from two RAM bytes of page 0. -/
def Obligations.IndexedIndirectIndexesBeforeTheIndirection : Prop :=
  ∀ (op : Op) (nn ptr : Byte) (s : State), ptr.toNat = (nn.toNat + s.x.toNat) % 256 →
    instrLength op .indexedIndirect = 2 ∧
    resolve .indexedIndirect (zext16 nn) s =
      some (wordOf (ramByte s.ram ((ptr.toNat + 1) % 256)) (ramByte s.ram ptr.toNat))

/-- 40_addressing_modes.md R65: indirect-indexed reads the base from two RAM bytes of page 0 and adds Y
after the indirection, with the carry into the high byte. That the sum wraps at 65536 is the spec's
decision D22. -/
def Obligations.IndirectIndexedIndexesAfterTheIndirection : Prop :=
  ∀ (op : Op) (nn : Byte) (s : State),
    instrLength op .indirectIndexed = 2 ∧
    ∃ ea, resolve .indirectIndexed (zext16 nn) s = some ea ∧
      ea.toNat = (256 * (ramByte s.ram ((nn.toNat + 1) % 256)).toNat +
        (ramByte s.ram nn.toNat).toNat + s.y.toNat) % 65536

/-- 40_addressing_modes.md R69 and R71, the two unreachable modes with an address of their own: relative
is a signed displacement from PC + 2, and indirect a pointer read that wraps within its page. The base
PC + 2, the length 3 and the page wrap of indirect are the spec's decisions D21 and D20. -/
def Obligations.RelativeAndIndirectModesResolve : Prop :=
  ∀ (op : Op) (nn page off : Byte) (s : State),
    instrLength op .relative = 2 ∧
    (∃ ea, resolve .relative (zext16 nn) s = some ea ∧
      (ea.toNat : Int) = ((s.pc.toNat : Int) + 2 + nn.toInt) % 65536) ∧
    instrLength op .indirect = 3 ∧
    resolve .indirect (wordOf page off) s =
      some (wordOf (memRead s (wordOf page (off + 1#8))) (memRead s (wordOf page off)))

/-- 40_addressing_modes.md R59: the resolver depends on X, Y, PC and data memory alone, it never fails,
and it is not invoked exactly for immediate and accumulator. -/
def Obligations.ResolverReadsOnlyIndexesPcAndMemory : Prop :=
  ∀ (m : Mode) (w : Word) (s : State),
    (resolve m w s = none ↔ m = .immediate ∨ m = .accumulator) ∧
    ∀ t : State, t.x = s.x → t.y = s.y → t.pc = s.pc → (∀ a, memRead t a = memRead s a) →
      resolve m w t = resolve m w s

/-! ### Encoding -/

/-- 30_encoding.md R51, R52: exactly these 15 opcode bytes decode, to these operations and modes. Every
row but 0xA9 rests on general knowledge of the 6502 (the spec's decisions D3, D4, D5). -/
def Obligations.OpcodeMapIsExactlyTheFifteen : Prop :=
  ∀ (o : Byte) (op : Op) (mode : Mode), decodeOpcode o = some (op, mode) ↔
    (o, op, mode) ∈ [
      (0x81#8, Op.sta, Mode.indexedIndirect), (0x85#8, .sta, .zeroPage), (0x8D#8, .sta, .absolute),
      (0x91#8, .sta, .indirectIndexed), (0x95#8, .sta, .zeroPageX), (0x99#8, .sta, .absoluteY),
      (0x9D#8, .sta, .absoluteX), (0xA1#8, .lda, .indexedIndirect), (0xA5#8, .lda, .zeroPage),
      (0xA9#8, .lda, .immediate), (0xAD#8, .lda, .absolute), (0xB1#8, .lda, .indirectIndexed),
      (0xB5#8, .lda, .zeroPageX), (0xB9#8, .lda, .absoluteY), (0xBD#8, .lda, .absoluteX)]

/-- 30_encoding.md R53, R56: a byte that is no instruction's opcode is rejected by name, whatever bytes
follow it: none of them is taken as an operand (the spec's decisions D3 and D13). -/
def Obligations.BytesWithNoEntryAreRejectedByName : Prop :=
  ∀ (o : Byte) (bytes : List Byte), (∀ i : Instr, i.opcode ≠ o) →
    decode (o :: bytes) = .error (.unimplemented o)

/-- 30_encoding.md R45, R52, R55: decoding the bytes of any instruction, with any bytes after them, gives
the instruction back with every operand, and the bytes after it. The opcode values but 0xA9 and the
operand byte order are the spec's decisions D4 and D6. -/
def Obligations.DecodeInvertsEncode : Prop :=
  ∀ (i : Instr) (rest : List Byte), decode (encode i ++ rest) = .ok (i, rest)

/-- 30_encoding.md R45, R51: bytes that decode are the encoding of what they decode to, so no two
byte sequences stand for one instruction. -/
def Obligations.EncodeInvertsDecode : Prop :=
  ∀ (bytes rest : List Byte) (i : Instr), decode bytes = .ok (i, rest) → bytes = encode i ++ rest

/-- 30_encoding.md R57: the assembler examples of the spec, byte for byte. -/
def Obligations.WrittenOutBytesDecode : Prop :=
  decode [0xA9#8, 0x80#8] = .ok (.ldaImmediate 0x80#8, []) ∧
  decode [0x95#8, 0xF0#8] = .ok (.staZeroPageX 0xF0#8, []) ∧
  decode [0x8D#8, 0x34#8, 0x12#8] = .ok (.staAbsolute 0x1234#16, []) ∧
  decode [0xBD#8, 0xFF#8, 0x12#8] = .ok (.ldaAbsoluteX 0x12FF#16, []) ∧
  decode [0xB1#8, 0xFF#8] = .ok (.ldaIndirectIndexed 0xFF#8, []) ∧
  decode [0x89#8, 0x00#8] = .error (.unimplemented 0x89#8)

/-! ### LDA -/

/-- 41_load_store.md R73: every form of LDA completes from every state. It loads the immediate operand,
or the byte at the resolved address, into A, sets N and Z from it, and changes nothing else. -/
def Obligations.LoadCompletesInEveryForm : Prop :=
  ∀ (i : Instr) (s : State), i.op = .lda →
    ∃ (v : Byte) (t : State), exec i s = .next t ∧ Loaded v s t ∧
      (i.mode = .immediate → v = lowByte i.operand) ∧
      (i.mode ≠ .immediate → ∃ ea, resolve i.mode i.operand s = some ea ∧ v = memRead s ea)

/-- 41_load_store.md R76: LDA immediate is the two bytes A9 nn; it loads nn, and at a step the operand is
the ROM byte after the opcode, even past IMAGE_SIZE. -/
def Obligations.ImmediateLoadTakesTheByteAfterTheOpcode : Prop :=
  ∀ (nn : Byte) (s : State),
    decode [0xA9#8, nn] = .ok (.ldaImmediate nn, []) ∧
    (∃ t, exec (.ldaImmediate nn) s = .next t ∧ Loaded nn s t) ∧
    (s.run = .running → s.pc.toNat < s.imageSize → fetchByte s s.pc = 0xA9#8 →
      ∃ t, step s = .next t ∧ t.pc = s.pc + 2#16 ∧
        Loaded (fetchByte s (s.pc + 1#16)) s { t with pc := s.pc })

/-- 41_load_store.md R77, R80, R81: LDA of the three absolute modes loads the byte at the operand, plus
Y or X modulo 65536. The opcode values and the operand's byte order are no part of this statement. -/
def Obligations.AbsoluteLoadsReadTheIndexedAddress : Prop :=
  ∀ (hhll : Word) (s : State),
    (∃ t, exec (.ldaAbsolute hhll) s = .next t ∧ Loaded (memRead s hhll) s t) ∧
    (∃ t, exec (.ldaAbsoluteX hhll) s = .next t ∧
      Loaded (memRead s (BitVec.ofNat 16 (hhll.toNat + s.x.toNat))) s t) ∧
    ∃ t, exec (.ldaAbsoluteY hhll) s = .next t ∧
      Loaded (memRead s (BitVec.ofNat 16 (hhll.toNat + s.y.toNat))) s t

/-- 41_load_store.md R75, R79: LDA of the two zero-page modes loads the RAM byte at the operand, plus X
modulo 256. -/
def Obligations.ZeroPageLoadsReadPageZero : Prop :=
  ∀ (nn : Byte) (s : State),
    (∃ t, exec (.ldaZeroPage nn) s = .next t ∧ Loaded (ramByte s.ram nn.toNat) s t) ∧
    ∃ t, exec (.ldaZeroPageX nn) s = .next t ∧
      Loaded (ramByte s.ram ((nn.toNat + s.x.toNat) % 256)) s t

/-- 41_load_store.md R74, R78: LDA of the two indirect modes loads the byte a zero-page pointer selects:
X is added to the pointer's place modulo 256, Y to the pointer's value modulo 65536 (D22). -/
def Obligations.IndirectLoadsFollowThePointer : Prop :=
  ∀ (nn : Byte) (s : State),
    (∃ t, exec (.ldaIndexedIndirect nn) s = .next t ∧
      Loaded (memRead s (BitVec.ofNat 16
        (256 * (ramByte s.ram ((nn.toNat + s.x.toNat + 1) % 256)).toNat +
          (ramByte s.ram ((nn.toNat + s.x.toNat) % 256)).toNat))) s t) ∧
    ∃ t, exec (.ldaIndirectIndexed nn) s = .next t ∧
      Loaded (memRead s (BitVec.ofNat 16
        (256 * (ramByte s.ram ((nn.toNat + 1) % 256)).toNat +
          (ramByte s.ram nn.toNat).toNat + s.y.toNat))) s t

/-- 41_load_store.md R73, 10_state.md R22: the frame of LDA, every form. Only A, N and Z may differ
(PC is the step's): every other register and flag, bit 5, every byte of memory through both ports, and
the controller's state are as before. -/
def Obligations.LoadLeavesEverythingElseUnchanged : Prop :=
  ∀ (i : Instr) (s t : State), i.op = .lda → exec i s = .next t →
    t.x = s.x ∧ t.y = s.y ∧ t.sp = s.sp ∧ t.pc = s.pc ∧
    testFlag .carry t = testFlag .carry s ∧
    testFlag .interruptDisable t = testFlag .interruptDisable s ∧
    testFlag .decimal t = testFlag .decimal s ∧ testFlag .break t = testFlag .break s ∧
    testFlag .overflow t = testFlag .overflow s ∧ t.p.getLsbD 5 = s.p.getLsbD 5 ∧
    (∀ b, memRead t b = memRead s b) ∧ (∀ b, fetchByte t b = fetchByte s b) ∧
    t.imageSize = s.imageSize ∧ t.run = s.run ∧ t.halt = s.halt

/-! ### STA -/

/-- 41_load_store.md R84, R87: STA of the two zero-page modes completes from every state, storing A at
the operand, plus X modulo 256, in page 0. -/
def Obligations.ZeroPageStoresWritePageZero : Prop :=
  ∀ (nn : Byte) (s : State),
    (∃ t, exec (.staZeroPage nn) s = .next t ∧ Stored (BitVec.ofNat 16 nn.toNat) s.a s t) ∧
    ∃ t, exec (.staZeroPageX nn) s = .next t ∧
      Stored (BitVec.ofNat 16 ((nn.toNat + s.x.toNat) % 256)) s.a s t

/-- 41_load_store.md R85, R88, R89: STA of the three absolute modes completes when its address is below
0x8000 (the spec's decision D7), storing A there. -/
def Obligations.AbsoluteStoresCompleteInRam : Prop :=
  ∀ (hhll : Word) (s : State),
    (hhll.toNat < 0x8000 → ∃ t, exec (.staAbsolute hhll) s = .next t ∧ Stored hhll s.a s t) ∧
    ((hhll.toNat + s.x.toNat) % 65536 < 0x8000 →
      ∃ t, exec (.staAbsoluteX hhll) s = .next t ∧
        Stored (BitVec.ofNat 16 (hhll.toNat + s.x.toNat)) s.a s t) ∧
    ((hhll.toNat + s.y.toNat) % 65536 < 0x8000 →
      ∃ t, exec (.staAbsoluteY hhll) s = .next t ∧
        Stored (BitVec.ofNat 16 (hhll.toNat + s.y.toNat)) s.a s t)

/-- 41_load_store.md R83, R86, and R119: STA of the two indirect modes completes when the address its
zero-page pointer gives is below 0x8000 (D7), storing A there. The pointer is read before the write, so
a store over its own pointer uses the old one. -/
def Obligations.IndirectStoresCompleteInRam : Prop :=
  ∀ (nn : Byte) (s : State) (ea : Word),
    (ea.toNat = 256 * (ramByte s.ram ((nn.toNat + s.x.toNat + 1) % 256)).toNat +
        (ramByte s.ram ((nn.toNat + s.x.toNat) % 256)).toNat → ea.toNat < 0x8000 →
      ∃ t, exec (.staIndexedIndirect nn) s = .next t ∧ Stored ea s.a s t) ∧
    (ea.toNat = (256 * (ramByte s.ram ((nn.toNat + 1) % 256)).toNat +
        (ramByte s.ram nn.toNat).toNat + s.y.toNat) % 65536 → ea.toNat < 0x8000 →
      ∃ t, exec (.staIndirectIndexed nn) s = .next t ∧ Stored ea s.a s t)

/-- 41_load_store.md R82, 60_exceptions.md R103: every form of STA whose address is 0x8000 or above raises
RomWriteViolation with PC, the opcode byte at PC and the address, and leaves everything else unchanged.
That nothing else is committed is the spec's decision D14, the split D7. -/
def Obligations.StoreIntoRomRaises : Prop :=
  ∀ (i : Instr) (s : State) (ea : Word), i.op = .sta → resolve i.mode i.operand s = some ea →
    0x8000 ≤ ea.toNat →
      ∃ t, exec i s = .next t ∧
        HaltedWith (.romWriteViolation s.pc (fetchByte s s.pc) ea) s t

/-- 41_load_store.md R82, 10_state.md R22: the frame of STA, every form. No register and no flag changes
(PC is the step's), no byte of memory other than the one at the resolved address reads otherwise, no ROM
byte does, and a store below 0x8000 leaves the controller's state as it was. -/
def Obligations.StoreLeavesEverythingElseUnchanged : Prop :=
  ∀ (i : Instr) (s t : State) (ea : Word), i.op = .sta → exec i s = .next t →
    resolve i.mode i.operand s = some ea →
      t.a = s.a ∧ t.x = s.x ∧ t.y = s.y ∧ t.sp = s.sp ∧ t.p = s.p ∧ t.pc = s.pc ∧
      (∀ b, b ≠ ea → memRead t b = memRead s b) ∧
      (∀ b, 0x8000 ≤ b.toNat → memRead t b = memRead s b) ∧
      (∀ b, fetchByte t b = fetchByte s b) ∧ t.imageSize = s.imageSize ∧
      (ea.toNat < 0x8000 → t.run = s.run ∧ t.halt = s.halt)

/-- 70_reset_and_hazards.md R118, 95_test_vectors.md E4: a store to a RAM address and a later load of it
with the same absolute mode give the stored value back, with its sign and zero class, whatever A and P
hold in between. -/
def Obligations.StoreThenLoadGivesTheValueBack : Prop :=
  ∀ (hhll : Word) (s : State) (a p : Byte),
    (hhll.toNat < 0x8000 →
      ∃ t u, exec (.staAbsolute hhll) s = .next t ∧
        exec (.ldaAbsolute hhll) { t with a := a, p := p } = .next u ∧ u.a = s.a ∧
        testFlag .negative u = s.a.getLsbD 7 ∧ testFlag .zero u = decide (s.a = 0x00#8)) ∧
    ((hhll.toNat + s.x.toNat) % 65536 < 0x8000 →
      ∃ t u, exec (.staAbsoluteX hhll) s = .next t ∧
        exec (.ldaAbsoluteX hhll) { t with a := a, p := p } = .next u ∧ u.a = s.a ∧
        testFlag .negative u = s.a.getLsbD 7 ∧ testFlag .zero u = decide (s.a = 0x00#8)) ∧
    ((hhll.toNat + s.y.toNat) % 65536 < 0x8000 →
      ∃ t u, exec (.staAbsoluteY hhll) s = .next t ∧
        exec (.ldaAbsoluteY hhll) { t with a := a, p := p } = .next u ∧ u.a = s.a ∧
        testFlag .negative u = s.a.getLsbD 7 ∧ testFlag .zero u = decide (s.a = 0x00#8))

/-! ### The step -/

/-- 42_fetch_execute.md R92 to R97: a Running step inside the program region whose bytes at PC, PC + 1
and PC + 2 decode to `i` is `exec i` in that state; then PC moves past the instruction, unless the
instruction halted the machine. -/
def Obligations.StepRunsTheDecodedInstruction : Prop :=
  ∀ (s : State) (i : Instr) (rest : List Byte), s.run = .running → s.pc.toNat < s.imageSize →
    decode [fetchByte s s.pc, fetchByte s (s.pc + 1#16), fetchByte s (s.pc + 2#16)] = .ok (i, rest) →
      ∃ t, exec i s = .next t ∧
        (t.run = .running → step s = .next { t with pc := t.pc + BitVec.ofNat 16 i.length }) ∧
        (t.run = .halted → step s = .next t)

/-- 42_fetch_execute.md R96: the complete step. From Halted there is none. Outside the program region it
halts with EndOfProgram; on an opcode with no entry, with UnimplementedOpcode; an LDA loads its value and
a STA stores A, or halts with RomWriteViolation; and PC advances by the length when the instruction
completes. A step that raises commits nothing else. The split, the place of the check and what a raise
leaves are the spec's decisions D7, D12, D13, D14. -/
def Obligations.StepFollowsTheControlPseudocode : Prop :=
  ∀ s : State,
    (s.run = .halted → step s = .fault .halted) ∧
    (s.run = .running → s.imageSize ≤ s.pc.toNat →
      ∃ t, step s = .next t ∧ HaltedWith (.endOfProgram s.pc) s t) ∧
    (s.run = .running → s.pc.toNat < s.imageSize → decodeOpcode (fetchByte s s.pc) = none →
      ∃ t, step s = .next t ∧ HaltedWith (.unimplementedOpcode s.pc (fetchByte s s.pc)) s t) ∧
    (∀ mode operand, s.run = .running → s.pc.toNat < s.imageSize →
      decodeOpcode (fetchByte s s.pc) = some (.lda, mode) →
      operand = operandAtPc s (instrLength .lda mode) →
      ∃ v t, step s = .next t ∧ t.pc = s.pc + BitVec.ofNat 16 (instrLength .lda mode) ∧
        Loaded v s { t with pc := s.pc } ∧
        (mode = .immediate → v = lowByte operand) ∧
        (mode ≠ .immediate → ∃ ea, resolve mode operand s = some ea ∧ v = memRead s ea)) ∧
    ∀ mode operand, s.run = .running → s.pc.toNat < s.imageSize →
      decodeOpcode (fetchByte s s.pc) = some (.sta, mode) →
      operand = operandAtPc s (instrLength .sta mode) →
      ∃ ea t, resolve mode operand s = some ea ∧ step s = .next t ∧
        (ea.toNat < 0x8000 → t.pc = s.pc + BitVec.ofNat 16 (instrLength .sta mode) ∧
          Stored ea s.a s { t with pc := s.pc }) ∧
        (0x8000 ≤ ea.toNat →
          HaltedWith (.romWriteViolation s.pc (fetchByte s s.pc) ea) s t)

/-- 42_fetch_execute.md R91: a Running step with PC at or past IMAGE_SIZE halts with EndOfProgram and
changes nothing else. That the check comes before the fetch is the spec's decision D12. -/
def Obligations.LeavingTheProgramEndsTheRun : Prop :=
  ∀ s : State, s.run = .running → s.imageSize ≤ s.pc.toNat →
    ∃ t, step s = .next t ∧ HaltedWith (.endOfProgram s.pc) s t ∧ NormalEnd t

/-- 60_exceptions.md R102: an opcode byte inside the program region with no entry halts the machine with
UnimplementedOpcode, PC and the byte, and nothing else changes. -/
def Obligations.UnimplementedOpcodeHalts : Prop :=
  ∀ s : State, s.run = .running → s.pc.toNat < s.imageSize →
    decodeOpcode (fetchByte s s.pc) = none →
      ∃ t, step s = .next t ∧
        HaltedWith (.unimplementedOpcode s.pc (fetchByte s s.pc)) s t ∧ FaultEnd t

/-- 42_fetch_execute.md R98: from Halted there is no step, now or after any number of steps. -/
def Obligations.HaltedIsTerminal : Prop :=
  ∀ (s : State) (k : Nat), s.run = .halted →
    step s = .fault .halted ∧ Host.Core.run core (k + 1) s = .fault .halted

/-- 42_fetch_execute.md R97 and 10_state.md R17: a step that completes moves PC past the instruction, by 2
or 3, without wrapping; a step that halts leaves PC. The bound behind "without wrapping" is the spec's
own derivation in R97. -/
def Obligations.CompletedStepAdvancesPcByTwoOrThree : Prop :=
  ∀ s t : State, s.imageSize ≤ 32768 → step s = .next t →
    (t.run = .running → ∃ op mode, decodeOpcode (fetchByte s s.pc) = some (op, mode) ∧
      t.pc.toNat = s.pc.toNat + instrLength op mode ∧
      (instrLength op mode = 2 ∨ instrLength op mode = 3)) ∧
    (t.run = .halted → t.pc = s.pc)

/-! ### Whole-machine rules -/

/-- Log entries 1, 2, 6 and 7 with 10_state.md R26, 20_memory.md R29, R30: the state after reset meets the
three invariants. -/
def Obligations.ResetMeetsTheInvariants : Prop :=
  Inv State.reset ∧ RunInv State.reset ∧ HaltExplained State.reset

/-- 70_reset_and_hazards.md R113: every launch, whatever its image and ROM_PAD, starts in a state that
meets the three invariants. -/
def Obligations.EveryLaunchMeetsTheInvariants : Prop :=
  ∀ (image pad : List Byte) (s : State), initialise image pad = .next s →
    Inv s ∧ RunInv s ∧ HaltExplained s

/-- Every step keeps the machine's invariant: both arrays in canonical form and inside their capacity
(20_memory.md R29, R30), the program region inside ROM and made of image bytes, PC at most two bytes past
it (R97), and a halt record exactly when Halted (10_state.md R26). -/
def Obligations.StepKeepsTheMachineInvariant : Prop :=
  ∀ s t : State, Inv s → step s = .next t → Inv t

/-- 10_state.md R15, R16, R18, R21, R22: in a run from the initial state X, Y and SP stay 0x00 and P stays
0x00, Z alone or N alone. The spec marks these as derived. -/
def Obligations.StepKeepsTheRunInvariant : Prop :=
  ∀ s t : State, RunInv s → step s = .next t → RunInv t

/-- 10_state.md R26, 60_exceptions.md R104: after a halt, the record says exactly why: the PC the machine
still holds, the opcode byte there, and for a refused write the address its store resolves to. -/
def Obligations.StepKeepsTheHaltRecordTrue : Prop :=
  ∀ s t : State, Inv s → HaltExplained s → step s = .next t → HaltExplained t

/-- 10_state.md R15, R16, R18, R22: no step changes X, Y, SP, the flags C, I, D, B and V, or bit 5 of P. -/
def Obligations.StepNeverWritesIndexStackOrOtherFlags : Prop :=
  ∀ s t : State, step s = .next t →
    t.x = s.x ∧ t.y = s.y ∧ t.sp = s.sp ∧
    testFlag .carry t = testFlag .carry s ∧
    testFlag .interruptDisable t = testFlag .interruptDisable s ∧
    testFlag .decimal t = testFlag .decimal s ∧ testFlag .break t = testFlag .break s ∧
    testFlag .overflow t = testFlag .overflow s ∧ t.p.getLsbD 5 = s.p.getLsbD 5

/-- 20_memory.md R44: no store is ever seen by an instruction fetch. After any number of steps every fetch,
and every data read of ROM, gives what it gave before, and the program region is the same. -/
def Obligations.RunNeverChangesFetchedCode : Prop :=
  ∀ (k : Nat) (s t : State), Host.Core.run core k s = .next t →
    (∀ b, fetchByte t b = fetchByte s b) ∧
    (∀ b, 0x8000 ≤ b.toNat → memRead t b = memRead s b) ∧ t.imageSize = s.imageSize

/-- 20_memory.md R30: only STA writes RAM. If a data byte differs after a step, the step was a completed
STA, the byte is below 0x8000 and at that STA's address, and it now holds A. -/
def Obligations.OnlyAStoreChangesRam : Prop :=
  ∀ (s t : State) (b : Word), step s = .next t → memRead t b ≠ memRead s b →
    t.run = .running ∧ b.toNat < 0x8000 ∧ memRead t b = s.a ∧
    ∃ mode, decodeOpcode (fetchByte s s.pc) = some (.sta, mode) ∧
      resolve mode (operandAtPc s (instrLength .sta mode)) s = some b

/-- 10_state.md R18, R23: no step reads P or SP. Two states that differ only there step alike, and differ
only there after it; SP itself is kept. -/
def Obligations.StepIgnoresStatusAndStackPointer : Prop :=
  ∀ (s t : State) (p sp : Byte), step s = .next t →
    ∃ t', step { s with p := p, sp := sp } = .next t' ∧
      { t' with p := t.p, sp := t.sp } = t ∧ t'.sp = sp

/-- 42_fetch_execute.md R99: every run halts, from every Running state whose image fits, after at most
ceil((IMAGE_SIZE - PC) / 2) instruction steps and one halting step, normally or in one of the two faults.
With PC = ENTRY = 0 this is the spec's own derived bound. -/
def Obligations.EveryRunHaltsWithinItsBound : Prop :=
  ∀ s : State, s.run = .running → s.imageSize ≤ 32768 →
    ∃ (k : Nat) (t : State), k ≤ (s.imageSize - s.pc.toNat + 1) / 2 + 1 ∧
      Host.Core.run core k s = .next t ∧ (NormalEnd t ∨ FaultEnd t)
end

