-- ==== Sys2Proof/Laws/Decode.lean ====
section
/-! SUPPORT. Laws of the byte helpers, of the decoder and of the encoder. -/

namespace Sys2Proof

/-! ### Bytes and words -/

@[simp] theorem zext16_toNat (b : Byte) : (zext16 b).toNat = b.toNat := by
  have := b.isLt
  simp [zext16, BitVec.toNat_setWidth]
  omega

theorem wordOf_toNat (hi lo : Byte) : (wordOf hi lo).toNat = 256 * hi.toNat + lo.toNat := by
  have h := lo.isLt
  simp only [wordOf, BitVec.toNat_append]
  rw [← Nat.shiftLeft_add_eq_or_of_lt h, Nat.shiftLeft_eq]
  omega

@[simp] theorem lowByte_toNat (w : Word) : (lowByte w).toNat = w.toNat % 256 := by
  simp [lowByte, BitVec.toNat_setWidth]

@[simp] theorem lowByte_zext16 (b : Byte) : lowByte (zext16 b) = b := by
  apply BitVec.eq_of_toNat_eq
  have := b.isLt
  simp only [lowByte_toNat, zext16_toNat]
  omega

@[simp] theorem highByte_toNat (w : Word) : (highByte w).toNat = w.toNat / 256 := by
  have := w.isLt
  simp only [highByte, BitVec.extractLsb'_toNat, Nat.shiftRight_eq_div_pow]
  omega

@[simp] theorem wordOf_highByte_lowByte (w : Word) : wordOf (highByte w) (lowByte w) = w := by
  apply BitVec.eq_of_toNat_eq
  rw [wordOf_toNat, highByte_toNat, lowByte_toNat]
  omega

@[simp] theorem lowByte_wordOf (hi lo : Byte) : lowByte (wordOf hi lo) = lo := by
  apply BitVec.eq_of_toNat_eq
  have := lo.isLt
  rw [lowByte_toNat, wordOf_toNat]
  omega

@[simp] theorem highByte_wordOf (hi lo : Byte) : highByte (wordOf hi lo) = hi := by
  apply BitVec.eq_of_toNat_eq
  have := lo.isLt
  rw [highByte_toNat, wordOf_toNat]
  omega

/-! ### The decoder -/

/-- The decoder's bit fields read each opcode of the map R52 as the operation and mode it stands for. -/
theorem decodeOpcode_opcode (i : Instr) : decodeOpcode i.opcode = some (i.op, i.mode) := by
  cases i <;> simp only [Instr.opcode, Instr.op, Instr.mode] <;> decide

/-- No store is immediate (R50), and no decoded mode is one of the four unreachable ones (R72). -/
theorem decodeOpcode_admitted {o : Byte} {op : Op} {mode : Mode}
    (h : decodeOpcode o = some (op, mode)) : admitted op mode = true := by
  have hmode : ∀ b : BitVec 3, admitted .lda (group01Mode b) = true ∧
      (group01Mode b = .immediate ∨ admitted .sta (group01Mode b) = true) := by decide
  unfold decodeOpcode at h
  split at h
  · cases h
  · split at h
    · cases h
    · cases h; exact (hmode _).1
    · split at h
      · cases h
      · rename_i hne
        cases h
        exact (hmode _).2.resolve_left hne

/-- An admitted pair is built into the instruction with that operation, mode and operand. -/
theorem buildInstr_of_admitted {op : Op} {mode : Mode} (h : admitted op mode = true) (w : Word) :
    ∃ i, buildInstr op mode w = some i ∧ i.op = op ∧ i.mode = mode ∧
      i.operand = if i.length = 3 then w else zext16 (lowByte w) := by
  cases op <;> cases mode <;> first
    | exact ⟨_, rfl, rfl, rfl, rfl⟩
    | cases h

/-- An instruction is rebuilt from its parts. -/
theorem buildInstr_parts (i : Instr) : buildInstr i.op i.mode i.operand = some i := by
  cases i <;> simp [Instr.op, Instr.mode, Instr.operand, buildInstr]

/-- Only an admitted pair is built, and the result's parts are those given. -/
theorem buildInstr_some {op : Op} {mode : Mode} {w : Word} {i : Instr}
    (h : buildInstr op mode w = some i) : i.op = op ∧ i.mode = mode := by
  cases op <;> cases mode <;> cases h <;> exact ⟨rfl, rfl⟩

/-- The length of an admitted instruction is 2 or 3 (R52). -/
theorem instrLength_of_admitted {op : Op} {mode : Mode} (h : admitted op mode = true) :
    instrLength op mode = 2 ∨ instrLength op mode = 3 := by
  cases op <;> cases mode <;> first
    | exact .inl rfl
    | exact .inr rfl
    | cases h

/-- Every instruction's pair is admitted. -/
theorem admitted_parts (i : Instr) : admitted i.op i.mode = true := by cases i <;> rfl

/-- What a decode that succeeds has found. -/
theorem decode_cases {bytes rest : List Byte} {i : Instr} (h : decode bytes = .ok (i, rest)) :
    ∃ o tail w, bytes = o :: tail ∧ decodeOpcode o = some (i.op, i.mode) ∧
      takeOperand i.length tail = some (w, rest) ∧ buildInstr i.op i.mode w = some i := by
  unfold decode at h
  split at h
  · cases h
  · rename_i o tail
    split at h
    · cases h
    · rename_i op mode hd
      split at h
      · cases h
      · rename_i w r hw
        split at h
        · cases h
        · rename_i j hb
          cases h
          obtain ⟨rfl, rfl⟩ := buildInstr_some hb
          exact ⟨o, tail, w, rfl, hd, hw, hb⟩

end Sys2Proof
end

