-- ==== Sys2Proof/Laws/State.lean ====
section
/-! SUPPORT. Each field of the state after each named update. -/

namespace Sys2Proof.Machine

variable (s : State)

@[simp] theorem State.setA_a (v : Byte) : (s.setA v).a = v := rfl
@[simp] theorem State.setA_x (v : Byte) : (s.setA v).x = s.x := rfl
@[simp] theorem State.setA_y (v : Byte) : (s.setA v).y = s.y := rfl
@[simp] theorem State.setA_sp (v : Byte) : (s.setA v).sp = s.sp := rfl
@[simp] theorem State.setA_p (v : Byte) : (s.setA v).p = s.p := rfl
@[simp] theorem State.setA_pc (v : Byte) : (s.setA v).pc = s.pc := rfl
@[simp] theorem State.setA_rom (v : Byte) : (s.setA v).rom = s.rom := rfl
@[simp] theorem State.setA_imageSize (v : Byte) : (s.setA v).imageSize = s.imageSize := rfl
@[simp] theorem State.setA_ram (v : Byte) : (s.setA v).ram = s.ram := rfl
@[simp] theorem State.setA_run (v : Byte) : (s.setA v).run = s.run := rfl
@[simp] theorem State.setA_halt (v : Byte) : (s.setA v).halt = s.halt := rfl

@[simp] theorem State.setP_a (v : Byte) : (s.setP v).a = s.a := rfl
@[simp] theorem State.setP_x (v : Byte) : (s.setP v).x = s.x := rfl
@[simp] theorem State.setP_y (v : Byte) : (s.setP v).y = s.y := rfl
@[simp] theorem State.setP_sp (v : Byte) : (s.setP v).sp = s.sp := rfl
@[simp] theorem State.setP_p (v : Byte) : (s.setP v).p = v := rfl
@[simp] theorem State.setP_pc (v : Byte) : (s.setP v).pc = s.pc := rfl
@[simp] theorem State.setP_rom (v : Byte) : (s.setP v).rom = s.rom := rfl
@[simp] theorem State.setP_imageSize (v : Byte) : (s.setP v).imageSize = s.imageSize := rfl
@[simp] theorem State.setP_ram (v : Byte) : (s.setP v).ram = s.ram := rfl
@[simp] theorem State.setP_run (v : Byte) : (s.setP v).run = s.run := rfl
@[simp] theorem State.setP_halt (v : Byte) : (s.setP v).halt = s.halt := rfl

@[simp] theorem State.setPc_a (v : Word) : (s.setPc v).a = s.a := rfl
@[simp] theorem State.setPc_x (v : Word) : (s.setPc v).x = s.x := rfl
@[simp] theorem State.setPc_y (v : Word) : (s.setPc v).y = s.y := rfl
@[simp] theorem State.setPc_sp (v : Word) : (s.setPc v).sp = s.sp := rfl
@[simp] theorem State.setPc_p (v : Word) : (s.setPc v).p = s.p := rfl
@[simp] theorem State.setPc_pc (v : Word) : (s.setPc v).pc = v := rfl
@[simp] theorem State.setPc_rom (v : Word) : (s.setPc v).rom = s.rom := rfl
@[simp] theorem State.setPc_imageSize (v : Word) : (s.setPc v).imageSize = s.imageSize := rfl
@[simp] theorem State.setPc_ram (v : Word) : (s.setPc v).ram = s.ram := rfl
@[simp] theorem State.setPc_run (v : Word) : (s.setPc v).run = s.run := rfl
@[simp] theorem State.setPc_halt (v : Word) : (s.setPc v).halt = s.halt := rfl

@[simp] theorem State.setRam_a (m : Memory) : (s.setRam m).a = s.a := rfl
@[simp] theorem State.setRam_x (m : Memory) : (s.setRam m).x = s.x := rfl
@[simp] theorem State.setRam_y (m : Memory) : (s.setRam m).y = s.y := rfl
@[simp] theorem State.setRam_sp (m : Memory) : (s.setRam m).sp = s.sp := rfl
@[simp] theorem State.setRam_p (m : Memory) : (s.setRam m).p = s.p := rfl
@[simp] theorem State.setRam_pc (m : Memory) : (s.setRam m).pc = s.pc := rfl
@[simp] theorem State.setRam_rom (m : Memory) : (s.setRam m).rom = s.rom := rfl
@[simp] theorem State.setRam_imageSize (m : Memory) : (s.setRam m).imageSize = s.imageSize := rfl
@[simp] theorem State.setRam_ram (m : Memory) : (s.setRam m).ram = m := rfl
@[simp] theorem State.setRam_run (m : Memory) : (s.setRam m).run = s.run := rfl
@[simp] theorem State.setRam_halt (m : Memory) : (s.setRam m).halt = s.halt := rfl

@[simp] theorem State.setRom_a (m : Memory) (n : Nat) : (s.setRom m n).a = s.a := rfl
@[simp] theorem State.setRom_x (m : Memory) (n : Nat) : (s.setRom m n).x = s.x := rfl
@[simp] theorem State.setRom_y (m : Memory) (n : Nat) : (s.setRom m n).y = s.y := rfl
@[simp] theorem State.setRom_sp (m : Memory) (n : Nat) : (s.setRom m n).sp = s.sp := rfl
@[simp] theorem State.setRom_p (m : Memory) (n : Nat) : (s.setRom m n).p = s.p := rfl
@[simp] theorem State.setRom_pc (m : Memory) (n : Nat) : (s.setRom m n).pc = s.pc := rfl
@[simp] theorem State.setRom_rom (m : Memory) (n : Nat) : (s.setRom m n).rom = m := rfl
@[simp] theorem State.setRom_imageSize (m : Memory) (n : Nat) : (s.setRom m n).imageSize = n := rfl
@[simp] theorem State.setRom_ram (m : Memory) (n : Nat) : (s.setRom m n).ram = s.ram := rfl
@[simp] theorem State.setRom_run (m : Memory) (n : Nat) : (s.setRom m n).run = s.run := rfl
@[simp] theorem State.setRom_halt (m : Memory) (n : Nat) : (s.setRom m n).halt = s.halt := rfl

@[simp] theorem State.setHalted_a (r : HaltRecord) : (s.setHalted r).a = s.a := rfl
@[simp] theorem State.setHalted_x (r : HaltRecord) : (s.setHalted r).x = s.x := rfl
@[simp] theorem State.setHalted_y (r : HaltRecord) : (s.setHalted r).y = s.y := rfl
@[simp] theorem State.setHalted_sp (r : HaltRecord) : (s.setHalted r).sp = s.sp := rfl
@[simp] theorem State.setHalted_p (r : HaltRecord) : (s.setHalted r).p = s.p := rfl
@[simp] theorem State.setHalted_pc (r : HaltRecord) : (s.setHalted r).pc = s.pc := rfl
@[simp] theorem State.setHalted_rom (r : HaltRecord) : (s.setHalted r).rom = s.rom := rfl
@[simp] theorem State.setHalted_imageSize (r : HaltRecord) : (s.setHalted r).imageSize = s.imageSize := rfl
@[simp] theorem State.setHalted_ram (r : HaltRecord) : (s.setHalted r).ram = s.ram := rfl
@[simp] theorem State.setHalted_run (r : HaltRecord) : (s.setHalted r).run = .halted := rfl
@[simp] theorem State.setHalted_halt (r : HaltRecord) : (s.setHalted r).halt = some r := rfl

@[simp] theorem State.setRunning_a : s.setRunning.a = s.a := rfl
@[simp] theorem State.setRunning_x : s.setRunning.x = s.x := rfl
@[simp] theorem State.setRunning_y : s.setRunning.y = s.y := rfl
@[simp] theorem State.setRunning_sp : s.setRunning.sp = s.sp := rfl
@[simp] theorem State.setRunning_p : s.setRunning.p = s.p := rfl
@[simp] theorem State.setRunning_pc : s.setRunning.pc = s.pc := rfl
@[simp] theorem State.setRunning_rom : s.setRunning.rom = s.rom := rfl
@[simp] theorem State.setRunning_imageSize : s.setRunning.imageSize = s.imageSize := rfl
@[simp] theorem State.setRunning_ram : s.setRunning.ram = s.ram := rfl
@[simp] theorem State.setRunning_run : s.setRunning.run = .running := rfl
@[simp] theorem State.setRunning_halt : s.setRunning.halt = none := rfl

end Sys2Proof.Machine
end

