-- ==== Sys2Proof/Laws/Flags.lean ====
section
/-! SUPPORT. What the flag operations do to P, and that they touch nothing else. -/

namespace Sys2Proof.Machine

variable (v : Byte) (f : Flag) (s : State)

theorem Flag.bit_lt : f.bit < 8 := by cases f <;> decide

/-- Bit `k` of P after `set(f)`. -/
theorem setFlag_bit (k : Nat) :
    (setFlag f s).p.getLsbD k = (s.p.getLsbD k || decide (k = f.bit)) := by
  simp only [setFlag, State.setP_p, BitVec.getLsbD_or, BitVec.getLsbD_twoPow, f.bit_lt,
    decide_true, Bool.true_and, eq_comm]

/-- Bit `k` of P after `clear(f)`. -/
theorem clearFlag_bit (k : Nat) (hk : k < 8) :
    (clearFlag f s).p.getLsbD k = (s.p.getLsbD k && decide (k ≠ f.bit)) := by
  simp only [clearFlag, State.setP_p, BitVec.getLsbD_and, BitVec.getLsbD_not, BitVec.getLsbD_twoPow,
    f.bit_lt, hk, decide_true, Bool.true_and, eq_comm, ne_eq, decide_not]

/-- `set(f)` changes P alone. -/
theorem setFlag_eq : setFlag f s = { s with p := (setFlag f s).p } := rfl

/-- `clear(f)` changes P alone. -/
theorem clearFlag_eq : clearFlag f s = { s with p := (clearFlag f s).p } := rfl

/-- The classification changes P alone. -/
theorem classifySignZero_eq : classifySignZero v s = { s with p := (classifySignZero v s).p } := by
  unfold classifySignZero
  split
  · rfl
  · split <;> rfl

/-- Bit `k` of P after the classification: N from bit 7 of v, Z from `v = 0`, the rest kept. -/
theorem classifySignZero_bit (k : Nat) (hk : k < 8) :
    (classifySignZero v s).p.getLsbD k =
      if k = 7 then v.getLsbD 7 else if k = 1 then decide (v = 0x00#8) else s.p.getLsbD k := by
  have hz : v.getLsbD 7 = true → v ≠ 0x00#8 := by rintro h rfl; simp at h
  have hc : (clearFlag .negative (clearFlag .zero s)).p.getLsbD k =
      ((s.p.getLsbD k && decide (k ≠ 1)) && decide (k ≠ 7)) := by
    rw [clearFlag_bit _ _ k hk, clearFlag_bit _ _ k hk]; rfl
  unfold classifySignZero
  by_cases hn : v.getLsbD 7 = true
  · rw [if_pos hn, setFlag_bit, hc, hn]
    by_cases h7 : k = 7
    · simp only [h7, Flag.bit, decide_true, Bool.or_true, if_true]
    · by_cases h1 : k = 1 <;> simp only [h7, h1, hz hn, Flag.bit] <;> simp [h7, h1]
  · rw [if_neg hn]
    rw [Bool.not_eq_true] at hn
    by_cases hv : v = 0x00#8
    · rw [if_pos hv, setFlag_bit, hc, hn]
      by_cases h7 : k = 7
      · simp only [h7, Flag.bit]; simp
      · by_cases h1 : k = 1 <;> simp only [h7, h1, hv, Flag.bit] <;> simp [h7, h1]
    · rw [if_neg hv, hc, hn]
      by_cases h7 : k = 7
      · simp only [h7]; simp
      · by_cases h1 : k = 1 <;> simp only [h7, h1, hv] <;> simp [h7, h1]

/-- P after the classification, for the three classes of v. -/
theorem classifySignZero_p : (classifySignZero v s).p =
    if v.getLsbD 7 then (s.p &&& 0x7D#8) ||| 0x80#8
    else if v = 0x00#8 then (s.p &&& 0x7D#8) ||| 0x02#8 else s.p &&& 0x7D#8 := by
  have hm : s.p &&& ~~~BitVec.twoPow 8 1 &&& ~~~BitVec.twoPow 8 7 = s.p &&& 0x7D#8 := by
    rw [BitVec.and_assoc]; rfl
  unfold classifySignZero
  split
  · simp only [setFlag, clearFlag, Flag.bit, State.setP_p, hm]; rfl
  · split <;> simp only [setFlag, clearFlag, Flag.bit, State.setP_p, hm]; rfl

end Sys2Proof.Machine
end

