-- ==== Sys2Proof/Laws/Memory.lean ====
section
/-! SUPPORT. The laws of the byte arrays: what a lookup gives after an update, and that every update
keeps the canonical form. -/

namespace Sys2Proof.Machine

theorem romSize_eq : Config.romSize = 32768 := rfl

theorem ramSize_eq : Config.ramSize = 32768 := rfl

theorem dataSplit_eq : Config.dataSplit = 0x8000 := rfl

/-! ### Lookup after an update -/

@[simp] theorem Memory.lookup_insert_self (k : Nat) (v : Byte) (m : Memory) :
    Memory.lookup k (Memory.insert k v m) = some v := by
  induction m with
  | nil => simp [Memory.insert, Memory.lookup]
  | cons c m ih =>
    obtain ⟨j, b⟩ := c
    simp only [Memory.insert]
    split
    · simp [Memory.lookup]
    · split
      · simp [Memory.lookup]
      · rename_i _ hne
        simp [Memory.lookup, Ne.symm hne, ih]

theorem Memory.lookup_insert_other {k j : Nat} (h : j ≠ k) (v : Byte) (m : Memory) :
    Memory.lookup j (Memory.insert k v m) = Memory.lookup j m := by
  induction m with
  | nil => simp [Memory.insert, Memory.lookup, Ne.symm h]
  | cons c m ih =>
    obtain ⟨i, b⟩ := c
    simp only [Memory.insert]
    split
    · simp [Memory.lookup, Ne.symm h]
    · split
      · rename_i _ hi
        subst hi
        simp [Memory.lookup, Ne.symm h]
      · simp [Memory.lookup, ih]

@[simp] theorem Memory.lookup_erase_self (k : Nat) (m : Memory) :
    Memory.lookup k (Memory.erase k m) = none := by
  induction m with
  | nil => rfl
  | cons c m ih =>
    obtain ⟨j, b⟩ := c
    simp only [Memory.erase]
    split
    · exact ih
    · rename_i hj
      simp [Memory.lookup, hj, ih]

theorem Memory.lookup_erase_other {k j : Nat} (h : j ≠ k) (m : Memory) :
    Memory.lookup j (Memory.erase k m) = Memory.lookup j m := by
  induction m with
  | nil => rfl
  | cons c m ih =>
    obtain ⟨i, b⟩ := c
    simp only [Memory.erase]
    split
    · rename_i hi
      subst hi
      simp [Memory.lookup, Ne.symm h, ih]
    · simp [Memory.lookup, ih]

/-! ### RAM -/

@[simp] theorem ramByte_ramStore_self (k : Nat) (v : Byte) (m : Memory) :
    ramByte (ramStore k v m) k = v := by
  unfold ramByte ramStore
  split <;> simp_all

theorem ramByte_ramStore_other {k j : Nat} (h : j ≠ k) (v : Byte) (m : Memory) :
    ramByte (ramStore k v m) j = ramByte m j := by
  unfold ramByte ramStore
  split <;> simp [Memory.lookup_erase_other h, Memory.lookup_insert_other h]

/-! ### ROM -/

/-- An offset that placing does not reach keeps what is listed there. -/
theorem lookup_romPlace_other (bs : List Byte) (k j : Nat) (m : Memory)
    (h : ∀ n < bs.length, j ≠ (k + n) % Config.romSize) :
    Memory.lookup j (romPlace k bs m) = Memory.lookup j m := by
  induction bs generalizing k m with
  | nil => rfl
  | cons b bs ih =>
    have hk : j ≠ k % Config.romSize := by simpa using h 0 (by simp)
    simp only [romPlace]
    rw [ih, Memory.lookup_insert_other hk]
    intro n hn
    have := h (n + 1) (by simpa using hn)
    rwa [show k + (n + 1) = k + 1 + n by omega] at this

/-- The bytes placed are listed where they are placed. -/
theorem lookup_romPlace (bs : List Byte) (k : Nat) (m : Memory)
    (hfit : k + bs.length ≤ Config.romSize) (n : Nat) (hn : n < bs.length) :
    Memory.lookup (k + n) (romPlace k bs m) = some bs[n] := by
  induction bs generalizing k m n with
  | nil => simp at hn
  | cons b bs ih =>
    simp only [List.length_cons] at hfit hn
    have hmod : ∀ i, i < Config.romSize → i % Config.romSize = i := fun i hi => Nat.mod_eq_of_lt hi
    simp only [romPlace]
    cases n with
    | zero =>
      rw [lookup_romPlace_other]
      · simp [hmod k (by omega)]
      · intro n hn
        rw [hmod _ (by omega)]
        omega
    | succ n =>
      rw [show k + (n + 1) = k + 1 + n by omega, ih (k + 1) _ (by omega) n (by omega)]
      simp

/-! ### Canonical forms -/

theorem Memory.risingFrom_mono {l l' : Nat} (h : l ≤ l') {m : Memory}
    (hm : Memory.risingFrom l' m = true) : Memory.risingFrom l m = true := by
  cases m with
  | nil => rfl
  | cons c m =>
    obtain ⟨j, b⟩ := c
    simp only [Memory.risingFrom, Bool.and_eq_true, decide_eq_true_eq] at hm ⊢
    exact ⟨by omega, hm.2⟩

theorem Memory.risingFrom_insert {l k : Nat} (v : Byte) {m : Memory} (hk : l ≤ k)
    (hm : Memory.risingFrom l m = true) : Memory.risingFrom l (Memory.insert k v m) = true := by
  induction m generalizing l with
  | nil => simp [Memory.insert, Memory.risingFrom, hk]
  | cons c m ih =>
    obtain ⟨j, b⟩ := c
    simp only [Memory.risingFrom, Bool.and_eq_true, decide_eq_true_eq] at hm
    simp only [Memory.insert]
    split
    · rename_i hkj
      simp only [Memory.risingFrom, Bool.and_eq_true, decide_eq_true_eq]
      exact ⟨hk, by omega, hm.2⟩
    · split
      · rename_i _ hkj
        simp only [Memory.risingFrom, Bool.and_eq_true, decide_eq_true_eq]
        exact ⟨hk, by rw [hkj]; exact hm.2⟩
      · simp only [Memory.risingFrom, Bool.and_eq_true, decide_eq_true_eq]
        exact ⟨hm.1, ih (by omega) hm.2⟩

theorem Memory.risingFrom_erase {l : Nat} (k : Nat) {m : Memory}
    (hm : Memory.risingFrom l m = true) : Memory.risingFrom l (Memory.erase k m) = true := by
  induction m generalizing l with
  | nil => rfl
  | cons c m ih =>
    obtain ⟨j, b⟩ := c
    simp only [Memory.risingFrom, Bool.and_eq_true, decide_eq_true_eq] at hm
    simp only [Memory.erase]
    split
    · exact Memory.risingFrom_mono (by omega) (ih hm.2)
    · simp only [Memory.risingFrom, Bool.and_eq_true, decide_eq_true_eq]
      exact ⟨hm.1, ih hm.2⟩

theorem Memory.all_insert {p : Host.Cell → Bool} {k : Nat} {v : Byte} {m : Memory}
    (hp : p (k, v) = true) (hm : m.all p = true) : (Memory.insert k v m).all p = true := by
  induction m with
  | nil => simp [Memory.insert, hp]
  | cons c m ih =>
    obtain ⟨j, b⟩ := c
    simp only [List.all_cons, Bool.and_eq_true] at hm
    simp only [Memory.insert]
    split
    · simp [hp, hm.1, hm.2]
    · split
      · simp [hp, hm.2]
      · simp [hm.1, ih hm.2]

theorem Memory.all_erase {p : Host.Cell → Bool} (k : Nat) {m : Memory}
    (hm : m.all p = true) : (Memory.erase k m).all p = true := by
  induction m with
  | nil => rfl
  | cons c m ih =>
    obtain ⟨j, b⟩ := c
    simp only [List.all_cons, Bool.and_eq_true] at hm
    simp only [Memory.erase]
    split
    · exact ih hm.2
    · simp [hm.1, ih hm.2]

/-- A store inside RAM keeps RAM's canonical form. -/
theorem ramStore_wf {k : Nat} (v : Byte) {m : Memory} (hk : k < Config.ramSize)
    (hm : m.wf = true) : Memory.wf (ramStore k v m) = true := by
  simp only [Memory.wf, Bool.and_eq_true] at hm ⊢
  unfold ramStore
  split
  · exact ⟨Memory.risingFrom_erase k hm.1, Memory.all_erase k hm.2⟩
  · rename_i hv
    exact ⟨Memory.risingFrom_insert v (Nat.zero_le k) hm.1,
      Memory.all_insert (by simp [hk, hv]) hm.2⟩

/-- Placing bytes in ROM keeps ROM's canonical form. -/
theorem romPlace_wf (bs : List Byte) (k : Nat) {m : Memory} (hm : m.romWf = true) :
    Memory.romWf (romPlace k bs m) = true := by
  induction bs generalizing k m with
  | nil => exact hm
  | cons b bs ih =>
    simp only [Memory.romWf, Bool.and_eq_true] at hm
    refine ih (k + 1) ?_
    simp only [Memory.romWf, Bool.and_eq_true]
    refine ⟨Memory.risingFrom_insert b (Nat.zero_le _) hm.1, Memory.all_insert ?_ hm.2⟩
    simpa using Nat.mod_lt k (by decide : 0 < Config.romSize)

/-- The memory of the state after reset is in canonical form. -/
theorem reset_memory_wf :
    State.reset.ram.wf = true ∧ State.reset.rom.romWf = true := ⟨rfl, rfl⟩

theorem Memory.erase_erase (k : Nat) (m : Memory) :
    Memory.erase k (Memory.erase k m) = Memory.erase k m := by
  induction m with
  | nil => rfl
  | cons c m ih =>
    obtain ⟨j, b⟩ := c
    simp only [Memory.erase]
    split
    · exact ih
    · rename_i hj
      simp [Memory.erase, hj, ih]

theorem Memory.insert_insert (k : Nat) (v : Byte) (m : Memory) :
    Memory.insert k v (Memory.insert k v m) = Memory.insert k v m := by
  induction m with
  | nil => simp [Memory.insert]
  | cons c m ih =>
    obtain ⟨j, b⟩ := c
    simp only [Memory.insert]
    split
    · simp [Memory.insert]
    · split
      · simp [Memory.insert]
      · rename_i h1 h2
        simp [Memory.insert, h1, h2, ih]

/-- Storing a byte twice is storing it once. -/
theorem ramStore_ramStore (k : Nat) (v : Byte) (m : Memory) :
    ramStore k v (ramStore k v m) = ramStore k v m := by
  unfold ramStore
  split
  · exact Memory.erase_erase k m
  · exact Memory.insert_insert k v m

end Sys2Proof.Machine
end

