-- ==== Sys2Proof/Laws/Ops.lean ====
section
/-! SUPPORT. What each shared operation can do. -/

namespace Sys2Proof.Machine

/-! ### Reads -/

theorem memRead_ram {s : State} {a : Word} (h : a.toNat < 0x8000) :
    memRead s a = ramByte s.ram a.toNat := if_pos h

theorem memRead_rom {s : State} {a : Word} (h : 0x8000 ≤ a.toNat) :
    memRead s a = romByte s.rom (a.toNat - 0x8000) := if_neg (Nat.not_lt.mpr h)

/-- A data read depends on the two arrays alone. -/
theorem memRead_congr {s t : State} (hram : t.ram = s.ram) (hrom : t.rom = s.rom) (a : Word) :
    memRead t a = memRead s a := by simp only [memRead, hram, hrom]

/-- A fetch depends on ROM alone. -/
theorem fetchByte_congr {s t : State} (hrom : t.rom = s.rom) (a : Word) :
    fetchByte t a = fetchByte s a := by simp only [fetchByte, hrom]

theorem fetchBytes_congr {s t : State} (hrom : t.rom = s.rom) (a : Word) (n : Nat) :
    fetchBytes t a n = fetchBytes s a n := by
  induction n generalizing a with
  | zero => rfl
  | succ n ih => simp only [fetchBytes, ih, fetchByte_congr hrom]

/-- What is fetched depends on ROM and PC alone. -/
theorem fetch_congr {s t : State} (hrom : t.rom = s.rom) (hpc : t.pc = s.pc) :
    fetch t = fetch s := by
  simp only [fetch, instrBytes, fetchByte_congr hrom, fetchBytes_congr hrom, hpc]

/-! ### Pointers -/

theorem pointerHighAddress_toNat (p : Word) :
    (pointerHighAddress p).toNat = 256 * (p.toNat / 256) + (p.toNat + 1) % 256 := by
  have hbits : pointerHighAddress p = wordOf (highByte p) (lowByte (p + 1#16)) := by
    apply BitVec.eq_of_getLsbD_eq
    intro k hk
    simp only [pointerHighAddress, wordOf, highByte, lowByte, BitVec.getLsbD_or, BitVec.getLsbD_and,
      BitVec.getLsbD_append, BitVec.getLsbD_setWidth, BitVec.getLsbD_extractLsb']
    have h1 : (0xFF00#16).getLsbD k = decide (8 ≤ k) := by revert k; decide
    have h2 : (0x00FF#16).getLsbD k = decide (k < 8) := by revert k; decide
    rw [h1, h2]
    by_cases h : k < 8
    · have h' : ¬8 ≤ k := by omega
      simp [h, h']
    · have h' : 8 ≤ k := by omega
      simp [h, h', show k - 8 < 8 by omega]
  rw [hbits, wordOf_toNat, highByte_toNat, lowByte_toNat, BitVec.toNat_add]
  simp

/-- The high byte of a pointer at a page and an offset is at the next offset of that page. -/
theorem pointerHighAddress_wordOf (page off : Byte) :
    pointerHighAddress (wordOf page off) = wordOf page (off + 1#8) := by
  apply BitVec.eq_of_toNat_eq
  have := off.isLt
  rw [pointerHighAddress_toNat, wordOf_toNat, wordOf_toNat, BitVec.toNat_add]
  simp
  omega

/-- The high byte of a zero-page pointer is in page 0. -/
theorem pointerHighAddress_zext16 (off : Byte) :
    pointerHighAddress (zext16 off) = zext16 (off + 1#8) := by
  apply BitVec.eq_of_toNat_eq
  have := off.isLt
  rw [pointerHighAddress_toNat, zext16_toNat, zext16_toNat, BitVec.toNat_add]
  simp
  omega

/-- A pointer read depends on data reads alone. -/
theorem ptrRead16_congr {s t : State} (h : ∀ a, memRead t a = memRead s a) (p : Word) :
    ptrRead16 t p = ptrRead16 s p := by simp only [ptrRead16, h]

/-- A zero-page pointer read, from RAM. -/
theorem ptrRead16_zeroPage (s : State) (off : Byte) :
    ptrRead16 s (zext16 off) =
      wordOf (ramByte s.ram ((off.toNat + 1) % 256)) (ramByte s.ram off.toNat) := by
  have h := off.isLt
  rw [ptrRead16, pointerHighAddress_zext16, memRead_ram, memRead_ram] <;>
    simp only [zext16_toNat, BitVec.toNat_add]
  · rfl
  · omega
  · simp; omega

/-! ### Writes -/

/-- A data write does one of two things. -/
theorem memWrite_cases (a : Word) (v : Byte) (s : State) :
    (a.toNat < 0x8000 ∧ memWrite a v s = s.setRam (ramStore a.toNat v s.ram)) ∨
    (0x8000 ≤ a.toNat ∧
      memWrite a v s = s.setHalted (.romWriteViolation s.pc (fetchByte s s.pc) a)) := by
  unfold memWrite
  split
  · exact .inl ⟨‹_›, rfl⟩
  · exact .inr ⟨Nat.not_lt.mp ‹_›, rfl⟩

theorem memWrite_ram {a : Word} (h : a.toNat < 0x8000) (v : Byte) (s : State) :
    memWrite a v s = s.setRam (ramStore a.toNat v s.ram) := if_pos h

theorem memWrite_rom {a : Word} (h : 0x8000 ≤ a.toNat) (v : Byte) (s : State) :
    memWrite a v s = s.setHalted (.romWriteViolation s.pc (fetchByte s s.pc) a) :=
  if_neg (Nat.not_lt.mpr h)

/-- The byte written reads back. -/
theorem memRead_setRam_self {a : Word} (h : a.toNat < 0x8000) (v : Byte) (s : State) :
    memRead (s.setRam (ramStore a.toNat v s.ram)) a = v := by
  rw [memRead_ram h, State.setRam_ram, ramByte_ramStore_self]

/-- Every other data address reads as before a RAM write. -/
theorem memRead_setRam_other {a b : Word} (hne : b ≠ a) (v : Byte) (s : State) :
    memRead (s.setRam (ramStore a.toNat v s.ram)) b = memRead s b := by
  have hnat : b.toNat ≠ a.toNat := fun h => hne (BitVec.eq_of_toNat_eq h)
  simp only [memRead, State.setRam_ram, State.setRam_rom, ramByte_ramStore_other hnat]

/-! ### Load, store and PC -/

/-- A load changes A and P alone. -/
theorem loadAccumulator_eq (v : Byte) (s : State) :
    loadAccumulator v s = { s with a := v, p := (classifySignZero v s).p } := by
  have hp : (classifySignZero v (s.setA v)).p = (classifySignZero v s).p := by
    simp only [classifySignZero_p, State.setA_p]
  rw [loadAccumulator, classifySignZero_eq, hp]
  rfl

/-- A step's instruction ends with PC moved, or halted as it is. -/
theorem finish_cases (i : Instr) (t : State) :
    (t.run = .running ∧ finish i t = t.setPc (t.pc + BitVec.ofNat 16 i.length)) ∨
    (t.run = .halted ∧ finish i t = t) := by
  unfold finish
  split
  · exact .inl ⟨‹_›, rfl⟩
  · exact .inr ⟨‹_›, rfl⟩

/-- Every mode a STA can have resolves. -/
theorem resolve_admitted_sta {mode : Mode} (h : admitted .sta mode = true) (w : Word) (s : State) :
    ∃ ea, resolve mode w s = some ea := by
  cases mode <;> first
    | exact ⟨_, rfl⟩
    | cases h

/-- The resolver depends on X, Y, PC and data reads alone. -/
theorem resolve_congr {s t : State} (hx : t.x = s.x) (hy : t.y = s.y) (hpc : t.pc = s.pc)
    (hmem : ∀ a, memRead t a = memRead s a) (m : Mode) (w : Word) :
    resolve m w t = resolve m w s := by
  cases m <;> simp only [resolve, eaAbsolute, eaAbsoluteX, eaAbsoluteY, eaIndirect, eaZeroPage,
    eaZeroPageX, eaZeroPageY, eaIndexedIndirect, eaIndirectIndexed, eaRelative, hx, hy, hpc,
    ptrRead16_congr hmem]

end Sys2Proof.Machine
end

