-- ==== Sys2Proof/Laws/PerInstr.lean ====
section
/-! SUPPORT. Facts stated of every instruction, one lemma for each constructor. -/

/-- Every instruction is well formed, and its encoding has the length R54 gives it. -/
def Sys2Proof.Laws.EncodedLength.Statement (i : Sys2Proof.Instr) : Prop :=
  i.wf = true ∧ (Sys2Proof.encode i).length = i.length ∧ (i.length = 2 ∨ i.length = 3)

namespace Sys2Proof.Laws.EncodedLength

theorem ldaIndexedIndirect (nn : Byte) : Statement (.ldaIndexedIndirect nn) := ⟨rfl, rfl, .inl rfl⟩
theorem ldaZeroPage (nn : Byte) : Statement (.ldaZeroPage nn) := ⟨rfl, rfl, .inl rfl⟩
theorem ldaImmediate (nn : Byte) : Statement (.ldaImmediate nn) := ⟨rfl, rfl, .inl rfl⟩
theorem ldaAbsolute (hhll : Word) : Statement (.ldaAbsolute hhll) := ⟨rfl, rfl, .inr rfl⟩
theorem ldaIndirectIndexed (nn : Byte) : Statement (.ldaIndirectIndexed nn) := ⟨rfl, rfl, .inl rfl⟩
theorem ldaZeroPageX (nn : Byte) : Statement (.ldaZeroPageX nn) := ⟨rfl, rfl, .inl rfl⟩
theorem ldaAbsoluteY (hhll : Word) : Statement (.ldaAbsoluteY hhll) := ⟨rfl, rfl, .inr rfl⟩
theorem ldaAbsoluteX (hhll : Word) : Statement (.ldaAbsoluteX hhll) := ⟨rfl, rfl, .inr rfl⟩
theorem staIndexedIndirect (nn : Byte) : Statement (.staIndexedIndirect nn) := ⟨rfl, rfl, .inl rfl⟩
theorem staZeroPage (nn : Byte) : Statement (.staZeroPage nn) := ⟨rfl, rfl, .inl rfl⟩
theorem staAbsolute (hhll : Word) : Statement (.staAbsolute hhll) := ⟨rfl, rfl, .inr rfl⟩
theorem staIndirectIndexed (nn : Byte) : Statement (.staIndirectIndexed nn) := ⟨rfl, rfl, .inl rfl⟩
theorem staZeroPageX (nn : Byte) : Statement (.staZeroPageX nn) := ⟨rfl, rfl, .inl rfl⟩
theorem staAbsoluteY (hhll : Word) : Statement (.staAbsoluteY hhll) := ⟨rfl, rfl, .inr rfl⟩
theorem staAbsoluteX (hhll : Word) : Statement (.staAbsoluteX hhll) := ⟨rfl, rfl, .inr rfl⟩

end Sys2Proof.Laws.EncodedLength
end

