-- ==== Sys2Proof/Laws/Step.lean ====
section
/-! SUPPORT. What `exec` and `step` can do, said once. -/

namespace Sys2Proof.Machine

/-- The value an LDA loads (41_load_store.md R73). -/
def loadedValue (i : Instr) (s : State) : Byte :=
  match resolve i.mode i.operand s with
  | none => lowByte i.operand
  | some ea => memRead s ea

/-- Every LDA is one load of its value. -/
theorem exec_lda {i : Instr} (h : i.op = .lda) (s : State) :
    exec i s = .next (loadAccumulator (loadedValue i s) s) := by
  cases i <;> try cases h
  all_goals
    simp [exec, loadedValue, resolve, Instr.mode, Instr.operand, execLdaIndexedIndirect,
      execLdaZeroPage, execLdaImmediate, execLdaAbsolute, execLdaIndirectIndexed,
      execLdaZeroPageX, execLdaAbsoluteY, execLdaAbsoluteX]

/-- Every STA is one store at its resolved address. -/
theorem exec_sta {i : Instr} (h : i.op = .sta) {s : State} {ea : Word}
    (hea : resolve i.mode i.operand s = some ea) : exec i s = .next (memWrite ea s.a s) := by
  cases i <;> try cases h
  all_goals
    simp only [resolve, Instr.mode, Instr.operand, lowByte_zext16, Option.some.injEq] at hea
    subst hea
    rfl

/-- Every instruction takes a next state: a load, or a write of A. -/
theorem exec_cases (i : Instr) (s : State) :
    (i.op = .lda ∧ exec i s = .next (loadAccumulator (loadedValue i s) s)) ∨
    (i.op = .sta ∧ ∃ ea, resolve i.mode i.operand s = some ea ∧
      exec i s = .next (memWrite ea s.a s)) := by
  cases hop : i.op with
  | lda => exact .inl ⟨rfl, exec_lda hop s⟩
  | sta =>
    obtain ⟨ea, hea⟩ := resolve_admitted_sta (hop ▸ admitted_parts i) i.operand s
    exact .inr ⟨rfl, ea, hea, exec_sta hop hea⟩

/-- The bytes of an instruction with an entry, by its length. -/
theorem fetchBytes_two (s : State) (a : Word) :
    fetchBytes s a 2 = [fetchByte s a, fetchByte s (a + 1#16)] := rfl

theorem fetchBytes_three (s : State) (a : Word) :
    fetchBytes s a 3 = [fetchByte s a, fetchByte s (a + 1#16), fetchByte s (a + 2#16)] := by
  simp only [fetchBytes, BitVec.add_assoc]
  rfl

/-- An opcode with an entry is fetched as the instruction with its operation, mode and operand. -/
theorem fetch_of_decodeOpcode {s : State} {op : Op} {mode : Mode}
    (h : decodeOpcode (fetchByte s s.pc) = some (op, mode)) :
    ∃ i, fetch s = .ok i ∧ i.op = op ∧ i.mode = mode ∧
      i.operand = operandAtPc s (instrLength op mode) := by
  have hadm := decodeOpcode_admitted h
  have hlen := instrLength_of_admitted hadm
  obtain hL | hL := hlen
  · obtain ⟨i, hi, rfl, rfl, ho⟩ := buildInstr_of_admitted hadm (zext16 (fetchByte s (s.pc + 1#16)))
    refine ⟨i, ?_, rfl, rfl, ?_⟩
    · simp only [fetch, instrBytes, h, hL, fetchBytes_two, decode, takeOperand, hi]
    · rw [ho, lowByte_zext16, ite_self, operandAtPc, if_neg (by omega)]
  · obtain ⟨i, hi, rfl, rfl, ho⟩ := buildInstr_of_admitted hadm
      (wordOf (fetchByte s (s.pc + 2#16)) (fetchByte s (s.pc + 1#16)))
    refine ⟨i, ?_, rfl, rfl, ?_⟩
    · simp only [fetch, instrBytes, h, hL, fetchBytes_three, decode, takeOperand, hi]
    · rw [ho, Instr.length, if_pos hL, operandAtPc, if_pos hL]

/-- An opcode with no entry is not fetched as an instruction. -/
theorem fetch_of_decodeOpcode_none {s : State} (h : decodeOpcode (fetchByte s s.pc) = none) :
    fetch s = .error (.unimplemented (fetchByte s s.pc)) := by
  simp only [fetch, instrBytes, h, fetchBytes, decode]

/-- What a fetched instruction says of the opcode byte at PC. -/
theorem fetch_ok {s : State} {i : Instr} (h : fetch s = .ok i) :
    decodeOpcode (fetchByte s s.pc) = some (i.op, i.mode) ∧
      i.operand = operandAtPc s i.length := by
  cases hd : decodeOpcode (fetchByte s s.pc) with
  | none => rw [fetch_of_decodeOpcode_none hd] at h; cases h
  | some om =>
    obtain ⟨op, mode⟩ := om
    obtain ⟨j, hj, rfl, rfl, ho⟩ := fetch_of_decodeOpcode hd
    cases hj.symm.trans h
    exact ⟨rfl, ho⟩

/-- A step that answers a next state did one of four things. -/
theorem step_cases {s t : State} (h : step s = .next t) :
    s.run = .running ∧
    ((s.imageSize ≤ s.pc.toNat ∧ t = s.setHalted (.endOfProgram s.pc)) ∨
     (s.pc.toNat < s.imageSize ∧
      ((decodeOpcode (fetchByte s s.pc) = none ∧
          t = s.setHalted (.unimplementedOpcode s.pc (fetchByte s s.pc))) ∨
       (∃ i, fetch s = .ok i ∧ i.op = .lda ∧
          t = (loadAccumulator (loadedValue i s) s).setPc (s.pc + BitVec.ofNat 16 i.length)) ∨
       ∃ i ea, fetch s = .ok i ∧ i.op = .sta ∧ resolve i.mode i.operand s = some ea ∧
          ((ea.toNat < 0x8000 ∧ t = (s.setRam (ramStore ea.toNat s.a s.ram)).setPc
              (s.pc + BitVec.ofNat 16 i.length)) ∨
           (0x8000 ≤ ea.toNat ∧
              t = s.setHalted (.romWriteViolation s.pc (fetchByte s s.pc) ea)))))) := by
  unfold step at h
  cases hrun : s.run with
  | halted => simp [hrun] at h
  | running =>
    refine ⟨rfl, ?_⟩
    simp only [hrun] at h
    by_cases hout : s.imageSize ≤ s.pc.toNat
    · rw [if_pos (by simpa [outsideProgram] using hout)] at h
      cases h
      exact .inl ⟨hout, rfl⟩
    · rw [if_neg (by simpa [outsideProgram] using hout)] at h
      refine .inr ⟨by omega, ?_⟩
      cases hf : fetch s with
      | error e =>
        simp only [hf, Host.Outcome.next.injEq] at h
        refine .inl ⟨?_, h.symm⟩
        cases hd : decodeOpcode (fetchByte s s.pc) with
        | none => rfl
        | some om =>
          obtain ⟨i, hi, -⟩ := fetch_of_decodeOpcode (op := om.1) (mode := om.2) hd
          rw [hf] at hi
          cases hi
      | ok i =>
        refine .inr ?_
        simp only [hf] at h
        obtain ⟨hop, hex⟩ | ⟨hop, ea, hea, hex⟩ := exec_cases i s
        · refine .inl ⟨i, rfl, hop, ?_⟩
          rw [hex] at h
          cases h
          rw [loadAccumulator_eq]
          simp [finish, hrun, advancePc, State.setPc]
        · refine .inr ⟨i, ea, rfl, hop, hea, ?_⟩
          rw [hex] at h
          cases h
          obtain ⟨hlt, hw⟩ | ⟨hge, hw⟩ := memWrite_cases ea s.a s
          · exact .inl ⟨hlt, by simp [hw, finish, hrun, advancePc]⟩
          · exact .inr ⟨hge, by simp [hw, finish]⟩

/-- Loading the accumulator is the effect R73 gives LDA. -/
theorem loaded_loadAccumulator (v : Byte) (s : State) : Loaded v s (loadAccumulator v s) := by
  rw [loadAccumulator_eq]
  refine ⟨rfl, classifySignZero_bit v s 7 (by decide), classifySignZero_bit v s 1 (by decide), ?_⟩
  intro k hk h7 h1
  exact (classifySignZero_bit v s k hk).trans (by rw [if_neg h7, if_neg h1])

/-- A write below 0x8000 is the effect R82 gives STA. -/
theorem stored_memWrite {ea : Word} (h : ea.toNat < 0x8000) (v : Byte) (s : State) :
    Stored ea v s (memWrite ea v s) := by
  rw [memWrite_ram h]
  exact ⟨rfl, memRead_setRam_self h v s, fun _ hb => memRead_setRam_other hb v s⟩

/-- A Running step inside the program region runs the instruction it fetches. -/
theorem step_of_fetch {s t : State} {i : Instr} (hrun : s.run = .running)
    (hpc : s.pc.toNat < s.imageSize) (hf : fetch s = .ok i) (he : exec i s = .next t) :
    step s = .next (finish i t) := by
  have hin : ¬outsideProgram s = true := by simpa [outsideProgram] using hpc
  simp only [step, hrun, if_neg hin, hf, he]

/-- From Running a step always answers a next state. -/
theorem step_running {s : State} (h : s.run = .running) : ∃ t, step s = .next t := by
  unfold step
  simp only [h]
  split
  · exact ⟨_, rfl⟩
  · split
    · exact ⟨_, rfl⟩
    · rename_i i _
      obtain ⟨-, hex⟩ | ⟨-, ea, -, hex⟩ := exec_cases i s <;> exact ⟨_, by rw [hex]⟩

/-! ### Runs -/

/-- A run goes on from the state its first step answers. -/
theorem run_succ_of_next {s t : State} (h : step s = .next t) (k : Nat) :
    Host.Core.run core (k + 1) s = Host.Core.run core k t := by
  have h' : Host.Core.step core s = .next t := h
  have hrun := Host.Core.run.eq_2 core s k
  rw [h'] at hrun
  exact hrun

/-- A run stops at a step that faults. -/
theorem run_succ_of_fault {s : State} {r : Fault} (h : step s = .fault r) (k : Nat) :
    Host.Core.run core (k + 1) s = .fault r := by
  have h' : Host.Core.step core s = .fault r := h
  have hrun := Host.Core.run.eq_2 core s k
  rw [h'] at hrun
  exact hrun

/-- No step is refused. -/
theorem step_not_refused (s : State) (r : Refusal) : step s ≠ .refused r := by
  cases hrun : s.run with
  | halted => simp [step, hrun]
  | running =>
    obtain ⟨t, ht⟩ := step_running hrun
    simp [ht]

/-- A run that answers a state after one step or more began with a step. -/
theorem run_succ_cases {k : Nat} {s t : State} (h : Host.Core.run core (k + 1) s = .next t) :
    ∃ u, step s = .next u ∧ Host.Core.run core k u = .next t := by
  cases hs : step s with
  | next u => exact ⟨u, rfl, (run_succ_of_next hs k).symm.trans h⟩
  | fault r => cases (run_succ_of_fault hs k).symm.trans h
  | refused r => exact absurd hs (step_not_refused s r)

end Sys2Proof.Machine
end

