-- ==== Sys2Proof/Tests/Slice0.lean ====
section
/-! SUPPORT. The model's own tests. Expected results are those of spec/95_test_vectors.md, or of the
rule a test names; then, for each statement with hypotheses, a witness that meets them. -/

namespace Sys2Proof.Tests

open Sys2Proof.Machine

/-! ### Helpers -/

/-- The reset state with an image loaded. -/
def launch (image : List Byte) : State :=
  State.reset.setRom (romPlace 0 image []) image.length

/-- What a step answers, if it is a next state. -/
def after (s : State) : Option State :=
  match step s with
  | .next t => some t
  | .fault _ => none
  | .refused _ => none

/-- A, P and PC after a step. -/
def afterApPc (s : State) : Option (Byte × Byte × Word) := (after s).map fun t => (t.a, t.p, t.pc)

/-- RAM and PC after a step. -/
def afterRamPc (s : State) : Option (Memory × Word) := (after s).map fun t => (t.ram, t.pc)

/-- The halt record after a step, and whether the rest of the state is as before it. -/
def afterHalt (s : State) : Option (Option HaltRecord × Bool) :=
  (after s).map fun t => (t.halt, decide ({ t with run := s.run, halt := s.halt } = s))

/-! ### WellFormed: what each check refuses -/

theorem test_wf_refuses_sta_immediate : admitted .sta .immediate = false := by decide
theorem test_wf_refuses_lda_zeroPageY : admitted .lda .zeroPageY = false := by decide
theorem test_wf_refuses_lda_relative : admitted .lda .relative = false := by decide
theorem test_wf_refuses_lda_accumulator : admitted .lda .accumulator = false := by decide
theorem test_wf_refuses_lda_indirect : admitted .lda .indirect = false := by decide
theorem test_wf_refuses_sta_zeroPageY : admitted .sta .zeroPageY = false := by decide
theorem test_wf_refuses_sta_relative : admitted .sta .relative = false := by decide
theorem test_wf_refuses_sta_accumulator : admitted .sta .accumulator = false := by decide
theorem test_wf_refuses_sta_indirect : admitted .sta .indirect = false := by decide
theorem test_wf_refuses_long_image : imageFits (List.replicate 32769 0x00#8) = false := by
  rw [imageFits, List.length_replicate]; rfl
theorem test_wf_admits_full_image : imageFits (List.replicate 32768 0x00#8) = true := by
  rw [imageFits, List.length_replicate]; rfl

/-! ### Decode: each opcode written bit by bit as aaa bbb cc (30_encoding.md R52) -/

theorem test_decode_ldaIndexedIndirect : decode [0b10100001#8, 0xFB#8] = .ok (.ldaIndexedIndirect 0xFB#8, []) := by decide
theorem test_decode_ldaZeroPage : decode [0b10100101#8, 0xFB#8] = .ok (.ldaZeroPage 0xFB#8, []) := by decide
theorem test_decode_ldaImmediate : decode [0b10101001#8, 0xFB#8] = .ok (.ldaImmediate 0xFB#8, []) := by decide
theorem test_decode_ldaAbsolute :
    decode [0b10101101#8, 0x34#8, 0x12#8] = .ok (.ldaAbsolute 0x1234#16, []) := by decide
theorem test_decode_ldaIndirectIndexed : decode [0b10110001#8, 0xFB#8] = .ok (.ldaIndirectIndexed 0xFB#8, []) := by decide
theorem test_decode_ldaZeroPageX : decode [0b10110101#8, 0xFB#8] = .ok (.ldaZeroPageX 0xFB#8, []) := by decide
theorem test_decode_ldaAbsoluteY :
    decode [0b10111001#8, 0x34#8, 0x12#8] = .ok (.ldaAbsoluteY 0x1234#16, []) := by decide
theorem test_decode_ldaAbsoluteX :
    decode [0b10111101#8, 0x34#8, 0x12#8] = .ok (.ldaAbsoluteX 0x1234#16, []) := by decide
theorem test_decode_staIndexedIndirect : decode [0b10000001#8, 0xFB#8] = .ok (.staIndexedIndirect 0xFB#8, []) := by decide
theorem test_decode_staZeroPage : decode [0b10000101#8, 0xFB#8] = .ok (.staZeroPage 0xFB#8, []) := by decide
theorem test_decode_staAbsolute :
    decode [0b10001101#8, 0x34#8, 0x12#8] = .ok (.staAbsolute 0x1234#16, []) := by decide
theorem test_decode_staIndirectIndexed : decode [0b10010001#8, 0xFB#8] = .ok (.staIndirectIndexed 0xFB#8, []) := by decide
theorem test_decode_staZeroPageX : decode [0b10010101#8, 0xFB#8] = .ok (.staZeroPageX 0xFB#8, []) := by decide
theorem test_decode_staAbsoluteY :
    decode [0b10011001#8, 0x34#8, 0x12#8] = .ok (.staAbsoluteY 0x1234#16, []) := by decide
theorem test_decode_staAbsoluteX :
    decode [0b10011101#8, 0x34#8, 0x12#8] = .ok (.staAbsoluteX 0x1234#16, []) := by decide

/-- V-DEC: the bytes the spec lists as having no entry. -/
theorem test_decode_no_entry :
    [0x89#8, 0x01#8, 0x61#8, 0xC9#8, 0xE9#8, 0xA8#8, 0xAA#8, 0xAB#8, 0xA2#8, 0x00#8, 0xEA#8, 0xFF#8].all
      (fun o => decode [o, 0x00#8, 0x00#8] = .error (.unimplemented o)) = true := by decide

/-- R53: 15 of the 256 bytes decode. -/
theorem test_decode_counts :
    ((List.range 256).filter fun k => (decodeOpcode (BitVec.ofNat 8 k)).isSome).length = 15 := by decide

theorem test_decode_nothing : decode [] = .error .noOpcode := by decide
theorem test_decode_truncated :
    decode [0xAD#8, 0x34#8] = .error (.operandMissing .lda .absolute) := by decide

/-- R54: the lengths of the two formats and of the unreachable modes. -/
theorem test_length : (instrLength .lda .accumulator, instrLength .lda .relative,
    instrLength .lda .indirect, instrLength .sta .zeroPage, instrLength .sta .absoluteY) =
    (1, 2, 3, 2, 3) := by decide

/-- Every word of the opcode table decodes and runs as the first instruction after reset. -/
theorem test_table_words_run :
    [0xA1, 0xA5, 0xA9, 0xAD, 0xB1, 0xB5, 0xB9, 0xBD, 0x81, 0x85, 0x8D, 0x91, 0x95, 0x99, 0x9D].all
      (fun w => match decodeTableWord 8 w with
        | none => false
        | some i => decide (i.opcode = BitVec.ofNat 8 w) &&
            decide ((after (State.reset.withFetchWord 8 w)).map (fun t => (t.run, t.pc.toNat)) =
              some (.running, i.length))) = true := by decide

/-! ### Flags (V-FLAG) -/

/-- P after `classify_sign_zero(v)`. -/
def classified (p v : Byte) : Byte := (classifySignZero v (State.reset.setP p)).p

theorem test_classify : [(0x00#8, 0x00#8), (0x00#8, 0x01#8), (0x82#8, 0x7F#8), (0x00#8, 0x80#8),
    (0x02#8, 0xFF#8), (0xC3#8, 0x01#8), (0xC3#8, 0x00#8), (0x3D#8, 0x90#8)].map
      (fun c => classified c.1 c.2) =
    [0x02#8, 0x00#8, 0x00#8, 0x80#8, 0x80#8, 0x41#8, 0x43#8, 0xBD#8] := by decide

/-! ### Memory (V-MEM) -/

/-- The memory of V-MEM. -/
def memState : State :=
  { State.reset with
    rom := [(0x0000, 0xA9#8), (0x0001, 0x11#8), (0x7FFF, 0xEE#8)]
    imageSize := 32768
    ram := [(0x0000, 0x12#8), (0x00FF, 0x34#8), (0x1200, 0x78#8), (0x12FF, 0x9A#8), (0x1300, 0xBC#8),
      (0x7FFF, 0x5A#8)] }

theorem test_memRead : [0x7FFF#16, 0x8000#16, 0x8001#16, 0xFFFF#16].map (memRead memState) =
    [0x5A#8, 0xA9#8, 0x11#8, 0xEE#8] := by decide
theorem test_fetchByte : [0x0000#16, 0x8000#16, 0xFFFF#16].map (fetchByte memState) =
    [0xA9#8, 0xA9#8, 0xEE#8] := by decide
theorem test_ptrRead16 : [0x00FF#16, 0x12FF#16, 0x0000#16].map (ptrRead16 memState) =
    [0x1234#16, 0x789A#16, 0x0012#16] := by decide
theorem test_memWrite_ram : (memWrite 0x7FFF#16 0x01#8 memState).ram.getLast? =
    some (0x7FFF, 0x01#8) := by decide
theorem test_memWrite_rom : [0x8000#16, 0xFFFF#16].map
      (fun a => (memWrite a 0x01#8 memState).halt) =
    [some (.romWriteViolation 0x0000#16 0xA9#8 0x8000#16),
      some (.romWriteViolation 0x0000#16 0xA9#8 0xFFFF#16)] := by decide
/-- Storing 0x00 lists nothing: the memory is as at reset (R30). -/
theorem test_store_zero_is_reset :
    (memWrite 0x0010#16 0x00#8 (memWrite 0x0010#16 0x42#8 State.reset)) = State.reset := by decide

/-! ### Resolver (V-RES) -/

/-- A state with X, Y and RAM given, at PC 0x0010. -/
def resState (x y : Byte) (ram : Memory) : State :=
  { State.reset with x := x, y := y, pc := 0x0010#16, ram := ram }

theorem test_resolve_absolute : (resolve .absolute 0xFFFF#16 (resState 0#8 0#8 []),
    resolve .absoluteX 0x12FF#16 (resState 1#8 0#8 []), resolve .absoluteX 0xFFFF#16 (resState 1#8 0#8 []),
    resolve .absoluteX 0x7FFF#16 (resState 1#8 0#8 []), resolve .absoluteY 0x20FE#16 (resState 0#8 0x10#8 []),
    resolve .absoluteY 0xFFF0#16 (resState 0#8 0x20#8 [])) =
    (some 0xFFFF#16, some 0x1300#16, some 0x0000#16, some 0x8000#16, some 0x210E#16, some 0x0010#16) := by
  decide
theorem test_resolve_zeroPage : (resolve .zeroPage 0x00FF#16 (resState 0#8 0#8 []),
    resolve .zeroPageX 0x00F0#16 (resState 0x20#8 0#8 []), resolve .zeroPageX 0x0005#16 (resState 0xFF#8 0#8 []),
    resolve .zeroPageY 0x0080#16 (resState 0#8 0x90#8 [])) =
    (some 0x00FF#16, some 0x0010#16, some 0x0004#16, some 0x0010#16) := by decide
theorem test_resolve_indexedIndirect :
    (resolve .indexedIndirect 0x00FE#16 (resState 1#8 0#8 [(0x00, 0x12#8), (0xFF, 0x34#8)]),
      resolve .indexedIndirect 0x00FB#16 (resState 5#8 0#8 [(0x00, 0x0E#8), (0x01, 0x21#8)]),
      resolve .indexedIndirect 0x0010#16 (resState 0#8 0#8 [(0x11, 0x90#8)])) =
    (some 0x1234#16, some 0x210E#16, some 0x9000#16) := by decide
theorem test_resolve_indirectIndexed :
    (resolve .indirectIndexed 0x00FF#16 (resState 0#8 0x10#8 [(0x00, 0x12#8), (0xFF, 0x34#8)]),
      resolve .indirectIndexed 0x0020#16 (resState 0#8 0x01#8 [(0x20, 0xFF#8), (0x21, 0x12#8)]),
      resolve .indirectIndexed 0x0020#16 (resState 0#8 0x20#8 [(0x20, 0xF0#8), (0x21, 0xFF#8)]),
      resolve .indirectIndexed 0x0020#16 (resState 0#8 0x10#8 [(0x20, 0xF0#8), (0x21, 0x7F#8)])) =
    (some 0x1244#16, some 0x1300#16, some 0x0010#16, some 0x8000#16) := by decide
theorem test_resolve_relative : [0x0005#16, 0x00FE#16, 0x0080#16].map
      (fun w => resolve .relative w (resState 0#8 0#8 [])) =
    [some 0x0017#16, some 0x0010#16, some 0xFF92#16] := by decide
theorem test_resolve_indirect :
    resolve .indirect 0x12FF#16 (resState 0#8 0#8 [(0x1200, 0x78#8), (0x12FF, 0x9A#8)]) =
      some 0x789A#16 := by decide

/-! ### LDA, one step (V-LDA) -/

theorem test_lda_immediate_zero :
    afterApPc ({ launch [0xA9#8, 0x00#8] with x := 0x00#8, y := 0x00#8, ram := [] }) =
      some (0x00#8, 0x02#8, 2#16) := by decide
theorem test_lda_immediate_negative :
    afterApPc ({ launch [0xA9#8, 0x80#8] with x := 0x00#8, y := 0x00#8, ram := [] }) =
      some (0x80#8, 0x80#8, 2#16) := by decide
theorem test_lda_zeroPage :
    afterApPc ({ launch [0xA5#8, 0x10#8] with x := 0x00#8, y := 0x00#8, ram := [(0x0010, 0x42#8)] }) =
      some (0x42#8, 0x00#8, 2#16) := by decide
theorem test_lda_zeroPageX_wraps :
    afterApPc ({ launch [0xB5#8, 0xF0#8] with x := 0x20#8, y := 0x00#8, ram := [(0x0110, 0x55#8)] }) =
      some (0x00#8, 0x02#8, 2#16) := by decide
theorem test_lda_absolute :
    afterApPc ({ launch [0xAD#8, 0x34#8, 0x12#8] with x := 0x00#8, y := 0x00#8, ram := [(0x1234, 0x99#8)] }) =
      some (0x99#8, 0x80#8, 3#16) := by decide
theorem test_lda_absolute_rom :
    afterApPc ({ launch [0xAD#8, 0x00#8, 0x80#8] with x := 0x00#8, y := 0x00#8, ram := [] }) =
      some (0xAD#8, 0x80#8, 3#16) := by decide
theorem test_lda_absoluteX :
    afterApPc ({ launch [0xBD#8, 0xFF#8, 0x12#8] with x := 0x01#8, y := 0x00#8, ram := [(0x1300, 0x01#8)] }) =
      some (0x01#8, 0x00#8, 3#16) := by decide
theorem test_lda_absoluteY_wraps :
    afterApPc ({ launch [0xB9#8, 0xF0#8, 0xFF#8] with x := 0x00#8, y := 0x20#8, ram := [(0x0010, 0x7F#8)] }) =
      some (0x7F#8, 0x00#8, 3#16) := by decide
theorem test_lda_indexedIndirect :
    afterApPc ({ launch [0xA1#8, 0xFB#8] with x := 0x05#8, y := 0x00#8, ram := [(0x0001, 0x02#8), (0x0200, 0xFF#8)] }) =
      some (0xFF#8, 0x80#8, 2#16) := by decide
theorem test_lda_indirectIndexed :
    afterApPc ({ launch [0xB1#8, 0xFF#8] with x := 0x00#8, y := 0x00#8, ram := [(0x0000, 0x12#8), (0x00FF, 0x34#8), (0x1234, 0x99#8)] }) =
      some (0x99#8, 0x80#8, 2#16) := by decide
theorem test_lda_indirectIndexed_rom :
    afterApPc ({ launch [0xB1#8, 0x20#8] with x := 0x00#8, y := 0x10#8, ram := [(0x0020, 0xF0#8), (0x0021, 0x7F#8)] }) =
      some (0xB1#8, 0x80#8, 2#16) := by decide

/-! ### STA, one step (V-STA) -/

theorem test_sta_zeroPage :
    afterRamPc ({ launch [0x85#8, 0x10#8] with a := 0x42#8, x := 0x00#8, y := 0x00#8, ram := [] }) =
      some ([(0x0010, 0x42#8)], 2#16) := by decide
theorem test_sta_zeroPageX :
    afterRamPc ({ launch [0x95#8, 0xF0#8] with a := 0x7F#8, x := 0x05#8, y := 0x00#8, ram := [] }) =
      some ([(0x00F5, 0x7F#8)], 2#16) := by decide
theorem test_sta_zeroPageX_wraps :
    afterRamPc ({ launch [0x95#8, 0xF0#8] with a := 0x7F#8, x := 0x20#8, y := 0x00#8, ram := [] }) =
      some ([(0x0010, 0x7F#8)], 2#16) := by decide
theorem test_sta_absolute :
    afterRamPc ({ launch [0x8D#8, 0x34#8, 0x12#8] with a := 0x99#8, x := 0x00#8, y := 0x00#8, ram := [] }) =
      some ([(0x1234, 0x99#8)], 3#16) := by decide
theorem test_sta_absoluteX_wraps :
    afterRamPc ({ launch [0x9D#8, 0xFF#8, 0xFF#8] with a := 0x33#8, x := 0x01#8, y := 0x00#8, ram := [] }) =
      some ([(0x0000, 0x33#8)], 3#16) := by decide
theorem test_sta_absoluteY :
    afterRamPc ({ launch [0x99#8, 0xFE#8, 0x20#8] with a := 0x01#8, x := 0x00#8, y := 0x10#8, ram := [] }) =
      some ([(0x210E, 0x01#8)], 3#16) := by decide
theorem test_sta_indexedIndirect :
    afterRamPc ({ launch [0x81#8, 0xFE#8] with a := 0x5A#8, x := 0x01#8, y := 0x00#8, ram := [(0x0000, 0x03#8)] }) =
      some ([(0x0000, 0x03#8), (0x0300, 0x5A#8)], 2#16) := by decide
theorem test_sta_indexedIndirect_over_its_pointer :
    afterRamPc ({ launch [0x81#8, 0xFE#8] with a := 0x5A#8, x := 0x01#8, y := 0x00#8, ram := [(0x00FF, 0xFF#8)] }) =
      some ([(0x00FF, 0x5A#8)], 2#16) := by decide
theorem test_sta_indirectIndexed :
    afterRamPc ({ launch [0x91#8, 0x20#8] with a := 0x11#8, x := 0x00#8, y := 0x10#8, ram := [(0x0021, 0x30#8)] }) =
      some ([(0x0021, 0x30#8), (0x3010, 0x11#8)], 2#16) := by decide
theorem test_sta_absolute_into_rom :
    afterHalt ({ launch [0x8D#8, 0x00#8, 0x80#8] with a := 0x01#8, x := 0x00#8, y := 0x00#8, ram := [] }) =
      some (some (.romWriteViolation 0x0000#16 0x8D#8 0x8000#16), true) := by decide
theorem test_sta_absoluteX_into_rom :
    afterHalt ({ launch [0x9D#8, 0xFF#8, 0x7F#8] with a := 0x33#8, x := 0x01#8, y := 0x00#8, ram := [] }) =
      some (some (.romWriteViolation 0x0000#16 0x9D#8 0x8000#16), true) := by decide
theorem test_sta_indirectIndexed_into_rom :
    afterHalt ({ launch [0x91#8, 0x20#8] with a := 0x11#8, x := 0x00#8, y := 0x10#8, ram := [(0x0020, 0xF0#8), (0x0021, 0x7F#8)] }) =
      some (some (.romWriteViolation 0x0000#16 0x91#8 0x8000#16), true) := by decide

/-! ### The controller (V-LOOP) -/

theorem test_step_empty_image :
    afterHalt (launch []) = some (some (.endOfProgram 0x0000#16), true) := by decide
theorem test_step_unimplemented : afterHalt { launch [0xEA#8] with a := 0x34#8, x := 0x12#8 } =
    some (some (.unimplementedOpcode 0x0000#16 0xEA#8), true) := by decide
theorem test_step_halted : (after { launch [0xA9#8, 0x00#8] with run := .halted }).isNone = true := by
  decide
/-- The operand byte is the first ROM_PAD byte. -/
theorem test_step_operand_in_pad :
    (match initialise [0xA9#8] [0x80#8] with
      | .next s => afterApPc s
      | .fault _ => none
      | .refused _ => none) = some (0x80#8, 0x80#8, 2#16) := by decide
/-- A full image, with the last operand byte fetched from offset 0x8000, which wraps to ROM[0]. -/
theorem test_step_fetch_wraps :
    afterApPc { State.reset with
      rom := [(0x0000, 0x80#8), (0x0005, 0x77#8), (0x7FFE, 0xAD#8), (0x7FFF, 0x05#8)]
      imageSize := 32768
      pc := 0x7FFE#16 } = some (0x77#8, 0x00#8, 0x8001#16) := by decide

/-! ### Initialisation (70_reset_and_hazards.md R113) -/

theorem test_reset_is_empty_launch : initialise [] [] = .next State.reset := rfl

/-! ### Witnesses: for each statement with hypotheses, values that meet all of them -/

/-- A Running state at the first byte of `image`, with A, X, Y and RAM given. -/
def at0 (image : List Byte) (a x y : Byte) (ram : Memory) : State :=
  { launch image with a := a, x := x, y := y, ram := ram }

theorem witness_InitialisationBuildsTheInitialState :
    32768 < (List.replicate 32769 (0x00#8 : Byte)).length ∧
    ((List.replicate 32768 (0x00#8 : Byte)).length ≤ 32768 ∧
      ([] : List Byte).length = 32768 - (List.replicate 32768 (0x00#8 : Byte)).length) ∧
    (([] : List Byte).length ≤ 32768 ∧
      (List.replicate 32768 (0x00#8 : Byte)).length = 32768 - ([] : List Byte).length) ∧
    0 < [0xA9#8, 0x00#8].length ∧ 0 < [0x80#8].length ∧ (0x7FFF#16).toNat < 0x8000 := by
  simp only [List.length_replicate]
  decide

theorem witness_ResetLeavesRegistersAndRamZero : (0x7FFF#16).toNat < 0x8000 := by decide

theorem witness_FlagPrimitivesActOnOneBit : 7 < 8 ∧ 7 ≠ Flag.bit .zero := by decide

theorem witness_ClassificationSetsNegativeAndZero :
    (∃ t, t = classifySignZero 0x01#8 State.reset) ∧ (1 ≤ (0x01#8).toNat ∧ (0x01#8).toNat ≤ 0x7F) ∧
    (1 ≤ (0x7F#8).toNat ∧ (0x7F#8).toNat ≤ 0x7F) ∧ (5 < 8 ∧ 5 ≠ 7 ∧ 5 ≠ 1) :=
  ⟨⟨_, rfl⟩, by decide⟩

theorem witness_DataPortAndFetchPortShareRom :
    (0x7FFF#16).toNat < 0x8000 ∧ 0x8000 ≤ (0x8000#16).toNat := by decide

theorem witness_DataWriteStoresOneByteOrRaises :
    (0x7FFF#16).toNat < 0x8000 ∧ 0x8000 ≤ (0x8000#16).toNat := by decide

theorem witness_RepeatedWriteLeavesTheSameState :
    0x0011#16 ≠ 0x0010#16 ∧ 0x8000 ≤ (0x8000#16).toNat := by decide

theorem witness_IndexedIndirectIndexesBeforeTheIndirection :
    (0x00#8).toNat = ((0xFB#8).toNat + (at0 [] 0#8 0x05#8 0#8 []).x.toNat) % 256 := by decide

theorem witness_ResolverReadsOnlyIndexesPcAndMemory :
    let s := at0 [] 0x01#8 0x05#8 0x10#8 [(0x10, 0x20#8)]
    let t := { s with a := 0x99#8, sp := 0xFF#8, p := 0x80#8 }
    t ≠ s ∧ t.x = s.x ∧ t.y = s.y ∧ t.pc = s.pc ∧ ∀ a, memRead t a = memRead s a :=
  ⟨by decide, rfl, rfl, rfl, fun _ => rfl⟩

theorem witness_BytesWithNoEntryAreRejectedByName : ∀ i : Instr, i.opcode ≠ 0x89#8 := by
  intro i
  cases i <;> simp only [Instr.opcode] <;> decide

theorem witness_EncodeInvertsDecode :
    decode [0x8D#8, 0x34#8, 0x12#8, 0xEA#8] = .ok (.staAbsolute 0x1234#16, [0xEA#8]) := by decide

theorem witness_LoadCompletesInEveryForm :
    ((Instr.ldaImmediate 0x80#8).op = .lda ∧ (Instr.ldaImmediate 0x80#8).mode = .immediate) ∧
    ((Instr.ldaAbsoluteX 0x12FF#16).op = .lda ∧ (Instr.ldaAbsoluteX 0x12FF#16).mode ≠ .immediate) := by
  decide

theorem witness_ImmediateLoadTakesTheByteAfterTheOpcode :
    let s := launch [0xA9#8]
    s.run = .running ∧ s.pc.toNat < s.imageSize ∧ fetchByte s s.pc = 0xA9#8 := by decide

theorem witness_LoadLeavesEverythingElseUnchanged :
    let s := at0 [] 0x00#8 0x05#8 0#8 [(0x01, 0x02#8), (0x0200, 0xFF#8)]
    (Instr.ldaIndexedIndirect 0xFB#8).op = .lda ∧
    ∃ t, exec (.ldaIndexedIndirect 0xFB#8) s = .next t ∧ t ≠ s :=
  ⟨rfl, _, rfl, by decide⟩

theorem witness_AbsoluteStoresCompleteInRam :
    let s := at0 [] 0x33#8 0x01#8 0x10#8 []
    (0x7FFF#16).toNat < 0x8000 ∧ ((0xFFFF#16).toNat + s.x.toNat) % 65536 < 0x8000 ∧
    ((0x7FEF#16).toNat + s.y.toNat) % 65536 < 0x8000 := by decide

theorem witness_IndirectStoresCompleteInRam :
    let s := at0 [] 0x5A#8 0x01#8 0x10#8 [(0x00, 0x7F#8), (0x20, 0xEF#8), (0x21, 0x7F#8), (0xFF, 0xFF#8)]
    ((0x7FFF#16).toNat = 256 * (ramByte s.ram (((0xFE#8).toNat + s.x.toNat + 1) % 256)).toNat +
        (ramByte s.ram (((0xFE#8).toNat + s.x.toNat) % 256)).toNat ∧ (0x7FFF#16).toNat < 0x8000) ∧
    ((0x7FFF#16).toNat = (256 * (ramByte s.ram (((0x20#8).toNat + 1) % 256)).toNat +
        (ramByte s.ram (0x20#8).toNat).toNat + s.y.toNat) % 65536 ∧ (0x7FFF#16).toNat < 0x8000) := by
  decide

theorem witness_StoreIntoRomRaises :
    let i := Instr.staAbsoluteX 0x7FFF#16
    let s := at0 [0x9D#8, 0xFF#8, 0x7F#8] 0x33#8 0x01#8 0#8 []
    i.op = .sta ∧ resolve i.mode i.operand s = some 0x8000#16 ∧ 0x8000 ≤ (0x8000#16).toNat := by decide

theorem witness_StoreLeavesEverythingElseUnchanged :
    let i := Instr.staZeroPageX 0xF0#8
    let s := at0 [0x95#8, 0xF0#8] 0x7F#8 0x20#8 0#8 []
    i.op = .sta ∧ (∃ t, exec i s = .next t ∧ t ≠ s) ∧ resolve i.mode i.operand s = some 0x0010#16 ∧
    0x0110#16 ≠ 0x0010#16 ∧ 0x8000 ≤ (0x8000#16).toNat ∧ (0x0010#16).toNat < 0x8000 :=
  ⟨rfl, ⟨_, rfl, by decide⟩, by decide⟩

theorem witness_StoreThenLoadGivesTheValueBack :
    let s := at0 [] 0xC3#8 0x01#8 0x10#8 []
    (0x2000#16).toNat < 0x8000 ∧ ((0x2000#16).toNat + s.x.toNat) % 65536 < 0x8000 ∧
    ((0xFFF0#16).toNat + s.y.toNat) % 65536 < 0x8000 := by decide

/-- An instruction that completes, and a store that halts. -/
theorem witness_StepRunsTheDecodedInstruction :
    (let s := at0 [0xAD#8, 0x00#8, 0x80#8] 0#8 0#8 0#8 []
     s.run = .running ∧ s.pc.toNat < s.imageSize ∧
     decode [fetchByte s s.pc, fetchByte s (s.pc + 1#16), fetchByte s (s.pc + 2#16)] =
       .ok (.ldaAbsolute 0x8000#16, []) ∧
     ∃ t, exec (.ldaAbsolute 0x8000#16) s = .next t ∧ t.run = .running) ∧
    (let s := at0 [0x8D#8, 0x00#8, 0x80#8] 0#8 0#8 0#8 []
     s.run = .running ∧ s.pc.toNat < s.imageSize ∧
     decode [fetchByte s s.pc, fetchByte s (s.pc + 1#16), fetchByte s (s.pc + 2#16)] =
       .ok (.staAbsolute 0x8000#16, []) ∧
     ∃ t, exec (.staAbsolute 0x8000#16) s = .next t ∧ t.run = .halted) :=
  ⟨⟨by decide, by decide, by decide, _, rfl, by decide⟩,
    ⟨by decide, by decide, by decide, _, rfl, by decide⟩⟩

/-- The five clauses: Halted; PC at IMAGE_SIZE; no entry; LDA immediate and LDA zero-page; STA at the
last RAM address and STA at the first ROM address. -/
theorem witness_StepFollowsTheControlPseudocode :
    ({ launch [0xA9#8] with run := .halted } : State).run = .halted ∧
    (let s := { launch [0xA9#8, 0x00#8] with pc := 2#16 }
     s.run = .running ∧ s.imageSize ≤ s.pc.toNat) ∧
    (let s := launch [0x89#8]
     s.run = .running ∧ s.pc.toNat < s.imageSize ∧ decodeOpcode (fetchByte s s.pc) = none) ∧
    (let s := launch [0xA9#8, 0x80#8]
     s.run = .running ∧ s.pc.toNat < s.imageSize ∧
     decodeOpcode (fetchByte s s.pc) = some (.lda, .immediate) ∧ 0x0080#16 = operandAtPc s 2) ∧
    (let s := launch [0xA5#8, 0x10#8]
     s.run = .running ∧ s.pc.toNat < s.imageSize ∧
     decodeOpcode (fetchByte s s.pc) = some (.lda, .zeroPage) ∧ 0x0010#16 = operandAtPc s 2) ∧
    (let s := launch [0x8D#8, 0xFF#8, 0x7F#8]
     s.run = .running ∧ s.pc.toNat < s.imageSize ∧
     decodeOpcode (fetchByte s s.pc) = some (.sta, .absolute) ∧ 0x7FFF#16 = operandAtPc s 3 ∧
     (0x7FFF#16).toNat < 0x8000) ∧
    (let s := launch [0x8D#8, 0x00#8, 0x80#8]
     s.run = .running ∧ s.pc.toNat < s.imageSize ∧
     decodeOpcode (fetchByte s s.pc) = some (.sta, .absolute) ∧ 0x8000#16 = operandAtPc s 3 ∧
     0x8000 ≤ (0x8000#16).toNat) := by decide

theorem witness_LeavingTheProgramEndsTheRun :
    let s := { launch [0xA9#8, 0x00#8] with pc := 2#16 }
    s.run = .running ∧ s.imageSize ≤ s.pc.toNat := by decide

theorem witness_UnimplementedOpcodeHalts :
    let s := { launch [0xA9#8, 0x01#8, 0xEA#8] with pc := 2#16 }
    s.run = .running ∧ s.pc.toNat < s.imageSize ∧ decodeOpcode (fetchByte s s.pc) = none := by decide

theorem witness_HaltedIsTerminal :
    (raise (.endOfProgram 0x0000#16) State.reset).run = .halted := by decide

/-- A step that completes, and a step that halts. -/
theorem witness_CompletedStepAdvancesPcByTwoOrThree :
    (let s := launch [0xA9#8, 0x00#8]
     s.imageSize ≤ 32768 ∧ (after s).any (fun t => t.run = .running) = true) ∧
    (let s := launch [0xEA#8]
     s.imageSize ≤ 32768 ∧ (after s).any (fun t => t.run = .halted) = true) := by decide

theorem witness_EveryLaunchMeetsTheInvariants :
    ∃ s, initialise [0xA9#8] [0x80#8] = .next s ∧ s.imageSize = 1 := ⟨_, rfl, rfl⟩

/-- A state of a run: two image bytes, RAM written, PC past the first instruction. -/
def midRun : State :=
  { launch [0xA9#8, 0x42#8, 0x85#8, 0x10#8] with a := 0x42#8, pc := 2#16, ram := [(0x20, 0x01#8)] }

theorem midRun_inv : Inv midRun where
  ramWf := by decide
  romWf := by decide
  imageFits := by decide
  imageListed := by decide
  pcBound := by decide
  haltIff := by decide

theorem midRun_runInv : RunInv midRun where
  xZero := by decide
  yZero := by decide
  spZero := by decide
  statusBits := by decide

theorem witness_StepKeepsTheMachineInvariant :
    Inv midRun ∧ ∃ t, step midRun = .next t := ⟨midRun_inv, step_running (by decide)⟩

theorem witness_StepKeepsTheRunInvariant :
    RunInv midRun ∧ ∃ t, step midRun = .next t := ⟨midRun_runInv, step_running (by decide)⟩

/-- A step that refuses a write, from a state that meets the invariants. -/
def midRunRom : State := { launch [0x8D#8, 0x00#8, 0x80#8] with a := 0x01#8 }

theorem midRunRom_inv : Inv midRunRom where
  ramWf := by decide
  romWf := by decide
  imageFits := by decide
  imageListed := by decide
  pcBound := by decide
  haltIff := by decide

theorem witness_StepKeepsTheHaltRecordTrue :
    Inv midRunRom ∧ HaltExplained midRunRom ∧ (∃ t, step midRunRom = .next t) ∧
    (after midRunRom).bind (fun t => t.halt) =
      some (.romWriteViolation 0x0000#16 0x8D#8 0x8000#16) :=
  ⟨midRunRom_inv, trivial, step_running (by decide), by decide⟩

theorem witness_StepNeverWritesIndexStackOrOtherFlags : ∃ t, step midRun = .next t :=
  step_running (by decide)

theorem witness_RunNeverChangesFetchedCode :
    (∃ t, Host.Core.run core 1 midRun = .next t) ∧ 0x8000 ≤ (0x8000#16).toNat := by
  obtain ⟨t, ht⟩ := step_running (s := midRun) (by decide)
  exact ⟨⟨t, (run_succ_of_next ht 0).trans rfl⟩, by decide⟩

theorem witness_OnlyAStoreChangesRam :
    (∃ t, step midRun = .next t) ∧
    (after midRun).any (fun t => memRead t 0x0010#16 ≠ memRead midRun 0x0010#16) = true :=
  ⟨step_running (by decide), by decide⟩

theorem witness_StepIgnoresStatusAndStackPointer : ∃ t, step midRun = .next t :=
  step_running (by decide)

theorem witness_EveryRunHaltsWithinItsBound : midRun.run = .running ∧ midRun.imageSize ≤ 32768 := by
  decide

end Sys2Proof.Tests
end

section
/-! PROOFS. The flag primitives (10_state.md R20) and the sign/zero classification (R21): what each
flag tests as afterwards, and the bits of P that are kept. -/

namespace Sys2Proof.Machine

variable (v : Byte) (f : Flag) (s : State)

/-! ### `set`, `clear` and `test` -/

@[simp] theorem testFlag_setFlag_self : testFlag f (setFlag f s) = true := by
  rw [testFlag, setFlag_bit, decide_eq_true rfl, Bool.or_true]

@[simp] theorem testFlag_clearFlag_self : testFlag f (clearFlag f s) = false := by
  rw [testFlag, clearFlag_bit f s f.bit f.bit_lt, decide_eq_false (not_not_intro rfl), Bool.and_false]

theorem setFlag_bit_other {f : Flag} {k : Nat} (hne : k ≠ f.bit) :
    (setFlag f s).p.getLsbD k = s.p.getLsbD k := by
  rw [setFlag_bit, decide_eq_false hne, Bool.or_false]

theorem clearFlag_bit_other {f : Flag} {k : Nat} (hk : k < 8) (hne : k ≠ f.bit) :
    (clearFlag f s).p.getLsbD k = s.p.getLsbD k := by
  rw [clearFlag_bit f s k hk, decide_eq_true hne, Bool.and_true]

/-- Settles O4: the positions of R19 are `Flag.bit` itself, and the rest is read off the bits of P after
`set` and after `clear`. -/
theorem flagPrimitivesActOnOneBit : Obligations.FlagPrimitivesActOnOneBit := by
  refine ⟨fun s => ⟨rfl, rfl, rfl, rfl, rfl, rfl, rfl⟩, fun f s => ?_⟩
  refine ⟨testFlag_setFlag_self f s, testFlag_clearFlag_self f s, setFlag_eq f s, clearFlag_eq f s, ?_⟩
  exact fun k hk hne => ⟨setFlag_bit_other s hne, clearFlag_bit_other s hk hne⟩

/-! ### The classification -/

@[simp] theorem testFlag_negative_classifySignZero :
    testFlag .negative (classifySignZero v s) = v.getLsbD 7 :=
  classifySignZero_bit v s 7 (by decide)

@[simp] theorem testFlag_zero_classifySignZero :
    testFlag .zero (classifySignZero v s) = decide (v = 0x00#8) :=
  classifySignZero_bit v s 1 (by decide)

theorem classifySignZero_bit_other {k : Nat} (hk : k < 8) (h7 : k ≠ 7) (h1 : k ≠ 1) :
    (classifySignZero v s).p.getLsbD k = s.p.getLsbD k := by
  rw [classifySignZero_bit v s k hk, if_neg h7, if_neg h1]

/-- A byte up to 0x7F has sign bit 0. -/
theorem getLsbD_seven_of_toNat_le {v : Byte} (h : v.toNat ≤ 0x7F) : v.getLsbD 7 = false :=
  Nat.testBit_lt_two_pow (Nat.lt_succ_of_le h)

/-- Settles O5: N and Z are two classes of v that exclude each other, because 0 has sign bit 0. -/
theorem classificationSetsNegativeAndZero : Obligations.ClassificationSetsNegativeAndZero := by
  rintro v s t rfl
  rw [testFlag_negative_classifySignZero, testFlag_zero_classifySignZero]
  refine ⟨classifySignZero_eq v s, rfl, rfl, ?notBoth, ?neither, ?kept⟩
  case notBoth =>
    rintro ⟨hneg, hzero⟩
    have hv : v = 0x00#8 := of_decide_eq_true hzero
    have hsign : v.getLsbD 7 = false := getLsbD_seven_of_toNat_le (by simp [hv])
    exact Bool.false_ne_true (hsign.symm.trans hneg)
  case neither =>
    intro hpos hle
    have hv : v ≠ 0x00#8 := by rintro rfl; exact absurd hpos (by decide)
    exact ⟨getLsbD_seven_of_toNat_le hle, decide_eq_false hv⟩
  case kept => exact fun k hk h7 h1 => classifySignZero_bit_other v s hk h7 h1

end Sys2Proof.Machine
end

section
/-! PROOFS. The data port's pointer read (20_memory.md R37), and the immutability of ROM: no step, and so
no run, writes the array that instructions are fetched from (R29, R44). -/

namespace Sys2Proof.Machine

/-! ### Pointers -/

/-- Settles O9: the masks of the high byte's address keep the page and add 1 to the offset alone. -/
theorem pointerReadStaysInItsPage : Obligations.PointerReadStaysInItsPage := by
  refine fun s => ⟨fun page off => ?anyPage, fun off => ?zeroPage⟩
  case anyPage => rw [ptrRead16, pointerHighAddress_wordOf]
  case zeroPage => rw [ptrRead16, pointerHighAddress_zext16]

/-! ### Immutability of ROM -/

/-- What every step keeps, a run of any length keeps. -/
theorem run_keeps {P : State → Prop} (hstep : ∀ s t, P s → step s = .next t → P t)
    {k : Nat} {s t : State} (hs : P s) (hrun : Host.Core.run core k s = .next t) : P t := by
  induction k generalizing s with
  | zero =>
    cases hrun
    exact hs
  | succ k ih =>
    obtain ⟨u, hsu, hut⟩ := run_succ_cases hrun
    exact ih (hstep s u hs hsu) hut

@[simp] theorem loadAccumulator_rom (v : Byte) (s : State) : (loadAccumulator v s).rom = s.rom := by
  rw [loadAccumulator_eq]

@[simp] theorem loadAccumulator_imageSize (v : Byte) (s : State) :
    (loadAccumulator v s).imageSize = s.imageSize := by
  rw [loadAccumulator_eq]

/-- `t` has the ROM array and the program region of `s`. -/
def SameProgram (s t : State) : Prop := t.rom = s.rom ∧ t.imageSize = s.imageSize

theorem SameProgram.trans {s t u : State} (hst : SameProgram s t) (htu : SameProgram t u) :
    SameProgram s u := by
  obtain ⟨hrom, hsize⟩ := hst
  obtain ⟨hrom', hsize'⟩ := htu
  exact ⟨hrom'.trans hrom, hsize'.trans hsize⟩

/-- A halt writes the controller alone, a load A, P and PC, a completed store RAM and PC: no step writes
ROM. -/
theorem step_sameProgram {s t : State} (h : step s = .next t) : SameProgram s t := by
  obtain ⟨-, ⟨-, rfl⟩ | ⟨-, ⟨-, rfl⟩ | ⟨i, -, -, rfl⟩ | ⟨i, ea, -, -, -, hstore⟩⟩⟩ := step_cases h
  case inl => exact ⟨rfl, rfl⟩
  case inr.inl => exact ⟨rfl, rfl⟩
  case inr.inr.inl => exact ⟨by simp, by simp⟩
  case inr.inr.inr =>
    obtain ⟨-, rfl⟩ | ⟨-, rfl⟩ := hstore
    · exact ⟨rfl, rfl⟩
    · exact ⟨rfl, rfl⟩

/-- No run writes ROM or moves the end of the program region. -/
theorem run_sameProgram {k : Nat} {s t : State} (h : Host.Core.run core k s = .next t) :
    SameProgram s t :=
  run_keeps (P := SameProgram s) (fun _ _ hsu hstep => hsu.trans (step_sameProgram hstep)) ⟨rfl, rfl⟩ h

/-- A data read of ROM depends on ROM alone. -/
theorem memRead_congr_of_rom {s t : State} (hrom : t.rom = s.rom) {b : Word} (hb : 0x8000 ≤ b.toNat) :
    memRead t b = memRead s b := by
  rw [memRead_rom hb, memRead_rom hb, hrom]

/-- Settles O45: a run keeps the ROM array, and both a fetch and a data read of ROM depend on it alone. -/
theorem runNeverChangesFetchedCode : Obligations.RunNeverChangesFetchedCode := by
  intro k s t hrun
  obtain ⟨hrom, hsize⟩ := run_sameProgram hrun
  exact ⟨fetchByte_congr hrom, fun _ hb => memRead_congr_of_rom hrom hb, hsize⟩

end Sys2Proof.Machine
end

section
/-! PROOFS. The addressing-mode resolver (40_addressing_modes.md R59 to R68): what it reads, and where
each mode adds its index. -/

namespace Sys2Proof.Machine

/-! ### What the resolver reads -/

/-- The resolver is not invoked exactly for the two modes of R63 and R70. -/
theorem resolve_eq_none_iff (m : Mode) (w : Word) (s : State) :
    resolve m w s = none ↔ m = .immediate ∨ m = .accumulator := by
  constructor
  · intro hnone
    cases m with
    | immediate => exact .inl rfl
    | accumulator => exact .inr rfl
    | _ => cases hnone
  · rintro (rfl | rfl)
    · rfl
    · rfl

/-- Settles O15: only two modes have no address, and every other one computes its address from the
operand, X, Y, PC and data reads. -/
theorem resolverReadsOnlyIndexesPcAndMemory : Obligations.ResolverReadsOnlyIndexesPcAndMemory := by
  refine fun m w s => ⟨resolve_eq_none_iff m w s, fun t hx hy hpc hmem => ?sameReads⟩
  case sameReads => exact resolve_congr hx hy hpc hmem m w

/-! ### Index sums -/

/-- An index added to a word carries into the high byte and wraps at 65536. -/
theorem toNat_add_zext16 (w : Word) (b : Byte) :
    (w + zext16 b).toNat = (w.toNat + b.toNat) % 65536 := by
  rw [BitVec.toNat_add, zext16_toNat]

/-- An index added to a byte stays in page 0. -/
theorem toNat_zext16_add (nn b : Byte) : (zext16 (nn + b)).toNat = (nn.toNat + b.toNat) % 256 := by
  rw [zext16_toNat, BitVec.toNat_add]

/-- Settles O10: the index of the two indexed modes is widened before the sum. -/
theorem absoluteModesAddSixteenBits : Obligations.AbsoluteModesAddSixteenBits := by
  refine fun op w s => ⟨rfl, rfl, rfl, ⟨eaAbsoluteX w s, rfl, ?x⟩, rfl, ⟨eaAbsoluteY w s, rfl, ?y⟩⟩
  case x => exact toNat_add_zext16 w s.x
  case y => exact toNat_add_zext16 w s.y

/-! ### Modes with a one-byte operand -/

@[simp] theorem resolve_zeroPage_zext16 (nn : Byte) (s : State) :
    resolve .zeroPage (zext16 nn) s = some (zext16 nn) := by
  rw [resolve, lowByte_zext16, eaZeroPage]

@[simp] theorem resolve_zeroPageX_zext16 (nn : Byte) (s : State) :
    resolve .zeroPageX (zext16 nn) s = some (zext16 (nn + s.x)) := by
  rw [resolve, lowByte_zext16, eaZeroPageX]

@[simp] theorem resolve_zeroPageY_zext16 (nn : Byte) (s : State) :
    resolve .zeroPageY (zext16 nn) s = some (zext16 (nn + s.y)) := by
  rw [resolve, lowByte_zext16, eaZeroPageY]

@[simp] theorem resolve_indexedIndirect_zext16 (nn : Byte) (s : State) :
    resolve .indexedIndirect (zext16 nn) s = some (ptrRead16 s (zext16 (nn + s.x))) := by
  rw [resolve, lowByte_zext16, eaIndexedIndirect]

/-- Settles O11: the index of the two indexed modes is added to the operand byte before the sum is
widened. -/
theorem zeroPageModesStayInPageZero : Obligations.ZeroPageModesStayInPageZero := by
  intro op nn s
  refine ⟨rfl, ⟨_, resolve_zeroPage_zext16 nn s, ?base⟩, rfl, ⟨_, resolve_zeroPageX_zext16 nn s, ?x⟩,
    rfl, ⟨_, resolve_zeroPageY_zext16 nn s, ?y⟩⟩
  case base => exact zext16_toNat nn
  case x => exact toNat_zext16_add nn s.x
  case y => exact toNat_zext16_add nn s.y

/-- Settles O12: the pointer is the byte `nn + X`, and a pointer read at a byte stays in page 0, which is
RAM. -/
theorem indexedIndirectIndexesBeforeTheIndirection :
    Obligations.IndexedIndirectIndexesBeforeTheIndirection := by
  intro op nn ptr s hptr
  have hsum : ptr = nn + s.x := BitVec.eq_of_toNat_eq (hptr.trans (BitVec.toNat_add nn s.x).symm)
  exact ⟨rfl, by rw [resolve_indexedIndirect_zext16, ← hsum, ptrRead16_zeroPage]⟩

end Sys2Proof.Machine
end

section
/-! PROOFS. LDA (41_load_store.md R73, R76): the value each form loads, and the step of a load. -/

namespace Sys2Proof.Machine

/-! ### The value loaded -/

/-- The operand byte of an immediate load is its value. -/
theorem loadedValue_immediate {i : Instr} (h : i.mode = .immediate) (s : State) :
    loadedValue i s = lowByte i.operand := by
  rw [loadedValue, h, resolve]

/-- A load with an effective address takes the data byte there. -/
theorem loadedValue_of_resolve {i : Instr} {s : State} {ea : Word}
    (h : resolve i.mode i.operand s = some ea) : loadedValue i s = memRead s ea := by
  rw [loadedValue, h]

theorem mode_ne_accumulator (i : Instr) : i.mode ≠ .accumulator := by
  cases i <;> nofun

/-- Of the instructions, only the immediate ones have no effective address. -/
theorem resolve_of_mode_ne_immediate {i : Instr} (h : i.mode ≠ .immediate) (s : State) :
    ∃ ea, resolve i.mode i.operand s = some ea := by
  refine Option.ne_none_iff_exists'.mp fun hnone => ?_
  obtain himm | hacc := (resolve_eq_none_iff i.mode i.operand s).mp hnone
  · exact h himm
  · exact mode_ne_accumulator i hacc

/-- Settles O21: every LDA is one load of `loadedValue`, which is the operand byte or the byte at the
resolved address. -/
theorem loadCompletesInEveryForm : Obligations.LoadCompletesInEveryForm := by
  intro i s hop
  refine ⟨_, _, exec_lda hop s, loaded_loadAccumulator _ s, ?immediate, ?resolved⟩
  case immediate => exact fun himm => loadedValue_immediate himm s
  case resolved =>
    intro himm
    obtain ⟨ea, hea⟩ := resolve_of_mode_ne_immediate himm s
    exact ⟨ea, hea, loadedValue_of_resolve hea⟩

/-! ### The step of a load -/

@[simp] theorem loadAccumulator_run (v : Byte) (s : State) : (loadAccumulator v s).run = s.run := by
  rw [loadAccumulator_eq]

@[simp] theorem loadAccumulator_pc (v : Byte) (s : State) : (loadAccumulator v s).pc = s.pc := by
  rw [loadAccumulator_eq]

/-- A load never halts, so its step moves PC past it. -/
theorem step_lda {s : State} {i : Instr} (hrun : s.run = .running) (hpc : s.pc.toNat < s.imageSize)
    (hf : fetch s = .ok i) (hop : i.op = .lda) :
    step s = .next
      ((loadAccumulator (loadedValue i s) s).setPc (s.pc + BitVec.ofNat 16 i.length)) := by
  rw [step_of_fetch hrun hpc hf (exec_lda hop s)]
  obtain ⟨-, hfin⟩ | ⟨hhalt, -⟩ := finish_cases i (loadAccumulator (loadedValue i s) s)
  · rw [hfin, loadAccumulator_pc]
  · rw [loadAccumulator_run, hrun] at hhalt
    cases hhalt

/-- Apart from PC, a load that moves PC is the load. -/
theorem loaded_setPc_loadAccumulator (v : Byte) (w : Word) (s : State) :
    Loaded v s { (loadAccumulator v s).setPc w with pc := s.pc } := by
  have hload : { (loadAccumulator v s).setPc w with pc := s.pc } = loadAccumulator v s := by
    rw [loadAccumulator_eq, State.setPc]
  rw [hload]
  exact loaded_loadAccumulator v s

/-! ### LDA immediate -/

theorem decodeOpcode_immediate : decodeOpcode 0xA9#8 = some (.lda, .immediate) :=
  decodeOpcode_opcode (.ldaImmediate 0x00#8)

theorem decode_immediate (nn : Byte) : decode [0xA9#8, nn] = .ok (.ldaImmediate nn, []) := by
  simp only [decode, decodeOpcode_immediate, instrLength, takeOperand, buildInstr, lowByte_zext16]

/-- The operand byte of an A9 at PC is fetched from ROM, whatever IMAGE_SIZE is. -/
theorem fetch_immediate {s : State} (h : fetchByte s s.pc = 0xA9#8) :
    fetch s = .ok (.ldaImmediate (fetchByte s (s.pc + 1#16))) := by
  have hbytes : instrBytes s = [0xA9#8, fetchByte s (s.pc + 1#16)] := by
    simp only [instrBytes, h, decodeOpcode_immediate, instrLength, fetchBytes_two]
  rw [fetch, hbytes, decode_immediate]

/-- Settles O22: the operand byte goes from the decoder into A, and the step reads it through the fetch
port. -/
theorem immediateLoadTakesTheByteAfterTheOpcode :
    Obligations.ImmediateLoadTakesTheByteAfterTheOpcode := by
  intro nn s
  refine ⟨decode_immediate nn, ⟨_, rfl, loaded_loadAccumulator nn s⟩, fun hrun hpc hA9 => ?step⟩
  case step =>
    have hstep := step_lda hrun hpc (fetch_immediate hA9) rfl
    rw [loadedValue_immediate rfl s, Instr.operand, lowByte_zext16] at hstep
    exact ⟨_, hstep, rfl, loaded_setPc_loadAccumulator _ _ s⟩

end Sys2Proof.Machine
end

section
/-! PROOFS. The end of a run (42_fetch_execute.md R98): from Halted there is no step. -/

namespace Sys2Proof.Machine

/-- The step tests `run` before anything else. -/
theorem step_halted {s : State} (h : s.run = .halted) : step s = .fault .halted := by
  rw [step, h]

/-- Settles O37: the step from Halted faults, and a run of one step or more stops at the fault of its
first step. -/
theorem haltedIsTerminal : Obligations.HaltedIsTerminal := by
  intro s k hhalted
  have hstep := step_halted hhalted
  exact ⟨hstep, run_succ_of_fault hstep k⟩

end Sys2Proof.Machine
end

section
/-! PROOFS. The errors of 60_exceptions.md: the refusal of an image that does not fit ROM (R101), and the
halt on an opcode byte with no entry (R102). -/

namespace Sys2Proof.Machine

/-! ### ImageLoadError -/

theorem imageFits_iff (image : List Byte) : imageFits image = true ↔ image.length ≤ 32768 :=
  decide_eq_true_iff

/-- The capacity check is the only source of the error: an image that passes it gets a state. -/
theorem initialise_eq_imageLoadError_iff (image pad : List Byte) :
    initialise image pad = .fault .imageLoadError ↔ ¬imageFits image = true := by
  unfold initialise
  split
  case isTrue hfits => simp [hfits]
  case isFalse hlong => simp [hlong]

/-- Settles O3: initialisation faults exactly when the capacity check fails, and the check is the bound
on the length. -/
theorem oversizedImageIsRefused : Obligations.OversizedImageIsRefused := by
  intro image pad
  rw [initialise_eq_imageLoadError_iff, imageFits_iff, Nat.not_le]

/-! ### UnimplementedOpcode -/

/-- A Running step inside the program region halts on an opcode byte with no entry. -/
theorem step_of_decodeOpcode_none {s : State} (hrun : s.run = .running)
    (hpc : s.pc.toNat < s.imageSize) (hnone : decodeOpcode (fetchByte s s.pc) = none) :
    step s = .next (s.setHalted (.unimplementedOpcode s.pc (fetchByte s s.pc))) := by
  have hin : ¬outsideProgram s = true := by simpa [outsideProgram] using hpc
  simp only [step, hrun, if_neg hin, fetch_of_decodeOpcode_none hnone, unimplemented, raise]

/-- A state halted with UnimplementedOpcode has ended in a fault (42_fetch_execute.md R99). -/
theorem faultEnd_setHalted_unimplementedOpcode (s : State) (pc : Word) (o : Byte) :
    FaultEnd (s.setHalted (.unimplementedOpcode pc o)) :=
  ⟨State.setHalted_run s _, .inl ⟨pc, o, State.setHalted_halt s _⟩⟩

/-- Settles O36: the step halts with the record of R102, and writing that record changes only `run` and
`halt`. -/
theorem unimplementedOpcodeHalts : Obligations.UnimplementedOpcodeHalts := by
  intro s hrun hpc hnone
  exact ⟨_, step_of_decodeOpcode_none hrun hpc hnone, rfl,
    faultEnd_setHalted_unimplementedOpcode s _ _⟩

end Sys2Proof.Machine
end

section
/-! PROOFS. The decoder and the encoder are inverse to each other (30_encoding.md R45 to R56). -/

namespace Sys2Proof

/-! ### An opcode byte is determined by what it decodes to -/

/-- The three fields of R46 cover the byte. -/
theorem eq_of_fields {o o' : Byte} (hcc : fieldCc o = fieldCc o') (hbbb : fieldBbb o = fieldBbb o')
    (haaa : fieldAaa o = fieldAaa o') : o = o' := by
  have hjoin : ∀ b : Byte, fieldAaa b ++ fieldBbb b ++ fieldCc b = b := by decide
  rw [← hjoin o, ← hjoin o', hcc, hbbb, haaa]

/-- No two selectors of R48 give one mode. -/
theorem group01Mode_inj {b b' : BitVec 3} (h : group01Mode b = group01Mode b') : b = b' := by
  revert b b'
  decide

/-- No two selectors of R49 give one operation. -/
theorem group01Op_inj {a a' : BitVec 3} {op : Op} (h : group01Op a = some op)
    (h' : group01Op a' = some op) : a = a' := by
  have hsel : ∀ b, group01Op b = some .lda → b = 0b101#3 := by decide
  have hsel' : ∀ b, group01Op b = some .sta → b = 0b100#3 := by decide
  cases op with
  | lda => rw [hsel a h, hsel a' h']
  | sta => rw [hsel' a h, hsel' a' h']

/-- What an entry of the opcode map says of each field. -/
theorem fields_of_decodeOpcode {o : Byte} {op : Op} {mode : Mode}
    (h : decodeOpcode o = some (op, mode)) :
    fieldCc o = 0b01#2 ∧ group01Op (fieldAaa o) = some op ∧ group01Mode (fieldBbb o) = mode := by
  unfold decodeOpcode at h
  split at h
  · cases h
  · rename_i hcc
    refine ⟨not_not.mp hcc, ?_⟩
    split at h
    · cases h
    · rename_i hop
      cases h
      exact ⟨hop, rfl⟩
    · rename_i hop
      split at h
      · cases h
      · cases h
        exact ⟨hop, rfl⟩

/-- No two opcode bytes decode to one operation and mode. -/
theorem decodeOpcode_inj {o o' : Byte} {op : Op} {mode : Mode}
    (h : decodeOpcode o = some (op, mode)) (h' : decodeOpcode o' = some (op, mode)) : o = o' := by
  obtain ⟨hcc, hop, hmode⟩ := fields_of_decodeOpcode h
  obtain ⟨hcc', hop', hmode'⟩ := fields_of_decodeOpcode h'
  exact eq_of_fields (hcc.trans hcc'.symm) (group01Mode_inj (hmode.trans hmode'.symm))
    (group01Op_inj hop hop')

/-- The decoder and the encoder's opcode map R52 agree. -/
theorem decodeOpcode_eq_some_iff {o : Byte} {i : Instr} :
    decodeOpcode o = some (i.op, i.mode) ↔ o = i.opcode := by
  constructor
  · exact fun h => decodeOpcode_inj h (decodeOpcode_opcode i)
  · rintro rfl
    exact decodeOpcode_opcode i

/-- A byte that decodes is the opcode of an instruction. -/
theorem exists_instr_of_decodeOpcode {o : Byte} {op : Op} {mode : Mode}
    (h : decodeOpcode o = some (op, mode)) : ∃ i : Instr, i.op = op ∧ i.mode = mode ∧ o = i.opcode := by
  obtain ⟨i, -, rfl, rfl, -⟩ := buildInstr_of_admitted (decodeOpcode_admitted h) 0#16
  exact ⟨i, rfl, rfl, decodeOpcode_eq_some_iff.mp h⟩

/-! ### Operand bytes -/

/-- The bytes after the opcode (R45), low byte first. -/
def Instr.operandBytes (i : Instr) : List Byte :=
  if i.length = 3 then [lowByte i.operand, highByte i.operand] else [lowByte i.operand]

theorem encode_eq (i : Instr) : encode i = i.opcode :: i.operandBytes := by
  cases i with
  | ldaAbsolute | ldaAbsoluteX | ldaAbsoluteY | staAbsolute | staAbsoluteX | staAbsoluteY => rfl
  | _ nn => exact congrArg (fun b => [_, b]) (lowByte_zext16 nn).symm

/-- The two formats of R45: an F3 operand is a whole word, an F2 operand a byte with zero above it. -/
theorem length_cases (i : Instr) :
    i.length = 3 ∨ i.length = 2 ∧ i.operand = zext16 (lowByte i.operand) := by
  cases i with
  | ldaAbsolute | ldaAbsoluteX | ldaAbsoluteY | staAbsolute | staAbsoluteX | staAbsoluteY =>
    exact .inl rfl
  | _ nn => exact .inr ⟨rfl, congrArg zext16 (lowByte_zext16 nn).symm⟩

/-- Operand assembly reads the operand bytes of an instruction back as its operand. -/
theorem takeOperand_operandBytes (i : Instr) (rest : List Byte) :
    takeOperand i.length (i.operandBytes ++ rest) = some (i.operand, rest) := by
  obtain hlen | ⟨hlen, hlow⟩ := length_cases i
  · simp [Instr.operandBytes, hlen, takeOperand]
  · simp [Instr.operandBytes, hlen, takeOperand, ← hlow]

/-- The operand of a built instruction is the word it was built from, cut to a byte in format F2. -/
theorem operand_of_buildInstr {op : Op} {mode : Mode} {w : Word} {i : Instr}
    (h : buildInstr op mode w = some i) :
    i.operand = if i.length = 3 then w else zext16 (lowByte w) := by
  obtain ⟨rfl, rfl⟩ := buildInstr_some h
  obtain ⟨j, hj, -, -, ho⟩ := buildInstr_of_admitted (admitted_parts i) w
  obtain rfl : j = i := Option.some.inj (hj.symm.trans h)
  exact ho

/-- The bytes an operand was assembled from are the operand bytes of the instruction built from it. -/
theorem eq_operandBytes_of_takeOperand {i : Instr} {w : Word} {bytes rest : List Byte}
    (htake : takeOperand i.length bytes = some (w, rest)) (hbuild : buildInstr i.op i.mode w = some i) :
    bytes = i.operandBytes ++ rest := by
  have hoperand := operand_of_buildInstr hbuild
  obtain hlen | ⟨hlen, -⟩ := length_cases i
  · obtain _ | ⟨low, _ | ⟨high, tail⟩⟩ := bytes <;> rw [hlen] at htake <;> cases htake
    simp [Instr.operandBytes, hlen, hoperand]
  · obtain _ | ⟨low, tail⟩ := bytes <;> rw [hlen] at htake <;> cases htake
    simp [Instr.operandBytes, hlen, hoperand]

/-! ### The two round trips -/

/-- A decode that takes every operand byte it needs answers the instruction of the map. -/
theorem decode_cons {i : Instr} {bytes rest : List Byte}
    (h : takeOperand i.length bytes = some (i.operand, rest)) :
    decode (i.opcode :: bytes) = .ok (i, rest) := by
  rw [Instr.length] at h
  simp only [decode, decodeOpcode_opcode, h, buildInstr_parts]

/-- Settles O18: the opcode byte gives the operation and mode, the operand bytes give the operand, and an
instruction is rebuilt from these parts. -/
theorem decodeInvertsEncode : Obligations.DecodeInvertsEncode := by
  intro i rest
  rw [encode_eq, List.cons_append]
  exact decode_cons (takeOperand_operandBytes i rest)

/-- Settles O19: a decode has found an opcode byte, which is the one of the map, and operand bytes, which
are those of the instruction. -/
theorem encodeInvertsDecode : Obligations.EncodeInvertsDecode := by
  intro bytes rest i h
  obtain ⟨o, tail, w, rfl, hentry, htake, hbuild⟩ := decode_cases h
  rw [encode_eq, decodeOpcode_eq_some_iff.mp hentry, eq_operandBytes_of_takeOperand htake hbuild,
    List.cons_append]

/-! ### The opcode map -/

/-- The rows of R52. -/
def opcodeMap : List (Byte × Op × Mode) :=
  [(0x81#8, .sta, .indexedIndirect), (0x85#8, .sta, .zeroPage), (0x8D#8, .sta, .absolute),
    (0x91#8, .sta, .indirectIndexed), (0x95#8, .sta, .zeroPageX), (0x99#8, .sta, .absoluteY),
    (0x9D#8, .sta, .absoluteX), (0xA1#8, .lda, .indexedIndirect), (0xA5#8, .lda, .zeroPage),
    (0xA9#8, .lda, .immediate), (0xAD#8, .lda, .absolute), (0xB1#8, .lda, .indirectIndexed),
    (0xB5#8, .lda, .zeroPageX), (0xB9#8, .lda, .absoluteY), (0xBD#8, .lda, .absoluteX)]

theorem decodeOpcode_of_mem_opcodeMap :
    ∀ row ∈ opcodeMap, decodeOpcode row.1 = some row.2 := by
  decide

/-- The row of an instruction is in the map. -/
theorem mem_opcodeMap (i : Instr) : (i.opcode, i.op, i.mode) ∈ opcodeMap := by
  cases i <;> simp only [Instr.op, Instr.mode, Instr.opcode] <;> decide

/-- Settles O16: a byte that decodes is the opcode of an instruction, whose row is in the map, and each
row of the map decodes. -/
theorem opcodeMapIsExactlyTheFifteen : Obligations.OpcodeMapIsExactlyTheFifteen := by
  intro o op mode
  refine ⟨fun h => ?decodes, decodeOpcode_of_mem_opcodeMap (o, op, mode)⟩
  case decodes =>
    obtain ⟨i, rfl, rfl, rfl⟩ := exists_instr_of_decodeOpcode h
    exact mem_opcodeMap i

/-- A byte with no entry is rejected before any operand byte is looked at (R56). -/
theorem decode_of_decodeOpcode_none {o : Byte} (h : decodeOpcode o = none) (bytes : List Byte) :
    decode (o :: bytes) = .error (.unimplemented o) := by
  simp only [decode, h]

/-- Settles O17: a byte that decodes is some instruction's opcode. -/
theorem bytesWithNoEntryAreRejectedByName : Obligations.BytesWithNoEntryAreRejectedByName := by
  intro o bytes hno
  refine decode_of_decodeOpcode_none (Option.eq_none_iff_forall_ne_some.mpr fun ⟨op, mode⟩ h => ?_) bytes
  obtain ⟨i, -, -, rfl⟩ := exists_instr_of_decodeOpcode h
  exact hno i rfl

/-- Settles O20: the first five are encodings followed by nothing, and 0x89 (STA immediate, R50) has no
entry. -/
theorem writtenOutBytesDecode : Obligations.WrittenOutBytesDecode := by
  refine ⟨decodeInvertsEncode (.ldaImmediate 0x80#8) [], decodeInvertsEncode (.staZeroPageX 0xF0#8) [],
    decodeInvertsEncode (.staAbsolute 0x1234#16) [], decodeInvertsEncode (.ldaAbsoluteX 0x12FF#16) [],
    decodeInvertsEncode (.ldaIndirectIndexed 0xFF#8) [], ?noEntry⟩
  case noEntry => exact decode_of_decodeOpcode_none (by decide) _

end Sys2Proof
end

section
/-! PROOFS. The two memory ports (20_memory.md R31 to R34, R39): the ROM array they share, and what a
data write leaves unchanged. -/

namespace Sys2Proof.Machine

/-! ### Reads -/

/-- Settles O1: the registers are those of `State.reset`, and no RAM byte is listed there. -/
theorem resetLeavesRegistersAndRamZero : Obligations.ResetLeavesRegistersAndRamZero := by
  refine ⟨rfl, rfl, rfl, rfl, rfl, rfl, rfl, rfl, rfl, fun a ha => ?ram⟩
  case ram =>
    rw [memRead_ram ha]
    rfl

/-- A fetch reads ROM at the low 15 bits of its address. -/
theorem fetchByte_eq_mask (s : State) (a : Word) :
    fetchByte s a = romByte s.rom (a &&& 0x7FFF#16).toNat := by
  have hmask : (a &&& 0x7FFF#16).toNat = a.toNat % 32768 :=
    (BitVec.toNat_and a 0x7FFF#16).trans (Nat.and_two_pow_sub_one_eq_mod a.toNat 15)
  rw [fetchByte, romSize_eq, hmask]

/-- Addresses with the same ROM offset fetch the same byte. -/
theorem fetchByte_eq_of_mod {s : State} {a b : Word} (h : a.toNat % 32768 = b.toNat % 32768) :
    fetchByte s a = fetchByte s b := by
  rw [fetchByte, fetchByte, romSize_eq, h]

/-- At and above the split, the data port reads the ROM byte that a fetch 0x8000 lower reads. -/
theorem memRead_eq_fetchByte {s : State} {a : Word} (h : 0x8000 ≤ a.toNat) :
    memRead s a = fetchByte s (a - 0x8000#16) := by
  have hoffset : (a - 0x8000#16).toNat % 32768 = a.toNat - 0x8000 := by bv_omega
  rw [memRead_rom h, fetchByte, romSize_eq, hoffset]

/-- Settles O6: each port reads the one ROM array at its own offset. -/
theorem dataPortAndFetchPortShareRom : Obligations.DataPortAndFetchPortShareRom := by
  refine fun s a => ⟨memRead_ram, memRead_eq_fetchByte, fetchByte_eq_mask s a, fetchByte_eq_of_mod ?wrap⟩
  case wrap => bv_omega

/-! ### Writes -/

/-- The registers, ROM and IMAGE_SIZE are no part of a data write. -/
theorem memWrite_frame (a : Word) (v : Byte) (s : State) :
    memWrite a v s = { s with
      ram := (memWrite a v s).ram, run := (memWrite a v s).run, halt := (memWrite a v s).halt } := by
  obtain ⟨-, hw⟩ | ⟨-, hw⟩ := memWrite_cases a v s <;> rw [hw] <;> rfl

section
variable (ea : Word) (v : Byte) (s : State)

@[simp] theorem memWrite_a_eq : (memWrite ea v s).a = s.a := by rw [memWrite_frame]
@[simp] theorem memWrite_x_eq : (memWrite ea v s).x = s.x := by rw [memWrite_frame]
@[simp] theorem memWrite_y_eq : (memWrite ea v s).y = s.y := by rw [memWrite_frame]
@[simp] theorem memWrite_sp_eq : (memWrite ea v s).sp = s.sp := by rw [memWrite_frame]
@[simp] theorem memWrite_p_eq : (memWrite ea v s).p = s.p := by rw [memWrite_frame]
@[simp] theorem memWrite_pc_eq : (memWrite ea v s).pc = s.pc := by rw [memWrite_frame]
@[simp] theorem memWrite_rom_eq : (memWrite ea v s).rom = s.rom := by rw [memWrite_frame]
@[simp] theorem memWrite_imageSize_eq : (memWrite ea v s).imageSize = s.imageSize := by
  rw [memWrite_frame]

end

/-- A data write changes at most the byte at its address. -/
theorem memRead_memWrite_other {a b : Word} (h : b ≠ a) (v : Byte) (s : State) :
    memRead (memWrite a v s) b = memRead s b := by
  obtain ⟨-, hw⟩ | ⟨-, hw⟩ := memWrite_cases a v s
  · rw [hw, memRead_setRam_other h]
  · rw [hw]
    exact memRead_congr rfl rfl b

/-- A refused write changes no byte. -/
theorem memRead_memWrite_of_rom {a : Word} (h : 0x8000 ≤ a.toNat) (v : Byte) (s : State) (b : Word) :
    memRead (memWrite a v s) b = memRead s b := by
  rw [memWrite_rom h]
  exact memRead_congr rfl rfl b

/-- Settles O7: `memWrite` has one branch on each side of the split. -/
theorem dataWriteStoresOneByteOrRaises : Obligations.DataWriteStoresOneByteOrRaises := by
  refine fun s a v => ⟨fun hram => stored_memWrite hram v s, fun hrom => ⟨?halted, ?reads, ?fetches⟩⟩
  case halted => exact memWrite_rom hrom v s
  case reads => exact memRead_memWrite_of_rom hrom v s
  case fetches => exact fetchByte_congr (memWrite_rom_eq a v s)

/-- A repeated write stores the same byte, or raises with the same record. -/
theorem memWrite_memWrite (a : Word) (v : Byte) (s : State) :
    memWrite a v (memWrite a v s) = memWrite a v s := by
  obtain ⟨hlt, hw⟩ | ⟨hge, hw⟩ := memWrite_cases a v s
  · rw [hw, memWrite_ram hlt, State.setRam_ram, ramStore_ramStore]
    rfl
  · rw [hw, memWrite_rom hge]
    rfl

/-- Settles O8: the bytes that a write could change are RAM bytes, and it changes the one at its
address. -/
theorem repeatedWriteLeavesTheSameState : Obligations.RepeatedWriteLeavesTheSameState := by
  refine fun s a v => ⟨memWrite_memWrite a v s, fun b hb => memRead_memWrite_other hb v s, ?rom, ?fetches⟩
  case rom => exact fun b hb => memRead_congr_of_rom (memWrite_rom_eq a v s) hb
  case fetches => exact fetchByte_congr (memWrite_rom_eq a v s)

end Sys2Proof.Machine
end

section
/-! PROOFS. The halts of 42_fetch_execute.md and 60_exceptions.md: the normal end of a run (R91), and the
class of every halt (R99). -/

namespace Sys2Proof.Machine

/-- A Running step outside the program region is the normal end (42_fetch_execute.md R91). -/
theorem step_of_outside {s : State} (hrun : s.run = .running) (hpc : s.imageSize ≤ s.pc.toNat) :
    step s = .next (s.setHalted (.endOfProgram s.pc)) := by
  have hout : outsideProgram s = true := decide_eq_true hpc
  simp only [step, hrun, hout, if_true, endProgram, raise]

/-- Settles O35: the step tests the program region before it fetches. -/
theorem leavingTheProgramEndsTheRun : Obligations.LeavingTheProgramEndsTheRun := by
  intro s hrun hpc
  exact ⟨_, step_of_outside hrun hpc, rfl, rfl, s.pc, rfl⟩

/-- Every halt is a normal end or one of the two faults. -/
theorem end_setHalted (s : State) (r : HaltRecord) :
    NormalEnd (s.setHalted r) ∨ FaultEnd (s.setHalted r) := by
  cases r with
  | endOfProgram pc => exact .inl ⟨rfl, pc, rfl⟩
  | unimplementedOpcode pc o => exact .inr (faultEnd_setHalted_unimplementedOpcode s pc o)
  | romWriteViolation pc o ea => exact .inr ⟨rfl, .inr ⟨pc, o, ea, rfl⟩⟩

end Sys2Proof.Machine
end

section
/-! PROOFS. Initialisation (70_reset_and_hazards.md R113): the ROM it builds, and the three invariants at
the start of a run. -/

namespace Sys2Proof.Machine

/-- The bytes a launch fixes, from ROM offset 0 on: the image and the ROM_PAD bytes after it. -/
def launchBytes (image pad : List Byte) : List Byte :=
  image ++ pad.take (Config.romSize - image.length)

/-- The state a launch starts in. -/
def launchState (image pad : List Byte) : State :=
  State.reset.setRom (romPlace 0 (launchBytes image pad) []) image.length

theorem initialise_of_fits {image : List Byte} (h : image.length ≤ 32768) (pad : List Byte) :
    initialise image pad = .next (launchState image pad) :=
  if_pos ((imageFits_iff image).mpr h)

/-- A launch answers a state only for an image that fits, and it is `launchState`. -/
theorem initialise_next {image pad : List Byte} {s : State} (h : initialise image pad = .next s) :
    image.length ≤ 32768 ∧ s = launchState image pad := by
  by_cases hfits : image.length ≤ 32768
  · rw [initialise_of_fits hfits] at h
    exact ⟨hfits, (Host.Outcome.next.inj h).symm⟩
  · have hfault := (oversizedImageIsRefused image pad).mpr (Nat.not_le.mp hfits)
    cases hfault.symm.trans h

theorem launchBytes_length_le {image : List Byte} (h : image.length ≤ 32768) (pad : List Byte) :
    (launchBytes image pad).length ≤ Config.romSize := by
  rw [launchBytes, List.length_append, List.length_take, romSize_eq]
  omega

/-- A ROM_PAD of the length R29 gives it is taken whole. -/
theorem launchBytes_of_pad {image pad : List Byte} (h : pad.length = 32768 - image.length) :
    launchBytes image pad = image ++ pad := by
  rw [launchBytes, List.take_of_length_le (by rw [romSize_eq]; omega)]

/-- The bytes of a launch are listed in ROM from offset 0 on. -/
theorem lookup_launchState {image : List Byte} (h : image.length ≤ 32768) (pad : List Byte) {k : Nat}
    (hk : k < (launchBytes image pad).length) :
    Memory.lookup k (launchState image pad).rom = some (launchBytes image pad)[k] := by
  have hplaced := lookup_romPlace (launchBytes image pad) 0 []
    (by rw [Nat.zero_add]; exact launchBytes_length_le h pad) k hk
  rwa [Nat.zero_add] at hplaced

/-- The bytes of a launch are fetched in order. -/
theorem fetchByte_launchState {image : List Byte} (h : image.length ≤ 32768) (pad : List Byte) {k : Nat}
    (hk : k < (launchBytes image pad).length) :
    fetchByte (launchState image pad) (BitVec.ofNat 16 k) = (launchBytes image pad)[k] := by
  have hrom : k < 32768 := hk.trans_le (launchBytes_length_le h pad)
  have hoffset : (BitVec.ofNat 16 k).toNat % 32768 = k := by rw [BitVec.toNat_ofNat]; omega
  rw [fetchByte, romSize_eq, hoffset, romByte, lookup_launchState h pad hk, Option.getD_some]

/-- Settles O2: a launch of an image that fits is `launchState`, whose ROM holds the image and then
ROM_PAD; PC 0 is already outside the region of an empty image. -/
theorem initialisationBuildsTheInitialState : Obligations.InitialisationBuildsTheInitialState := by
  refine fun image pad => ⟨(oversizedImageIsRefused image pad).mpr, fun hfits hpad => ?fits⟩
  case fits =>
    have hbytes := launchBytes_of_pad hpad
    have hfetch : ∀ k (hk : k < (image ++ pad).length),
        fetchByte (launchState image pad) (BitVec.ofNat 16 k) = (image ++ pad)[k] := by
      rw [← hbytes]
      exact fun k hk => fetchByte_launchState hfits pad hk
    refine ⟨_, initialise_of_fits hfits pad, fun k hk => ?image, fun k hk => ?pad, fun a ha => ?ram,
      rfl, rfl, rfl, rfl, rfl, rfl, rfl, rfl, rfl, fun hempty => ?empty⟩
    case image =>
      rw [hfetch k (by rw [List.length_append]; omega), List.getElem_append_left hk]
    case pad =>
      rw [hfetch (image.length + k) (by rw [List.length_append]; omega),
        List.getElem_append_right (Nat.le_add_right _ _)]
      simp only [Nat.add_sub_cancel_left]
    case ram =>
      rw [memRead_ram ha]
      rfl
    case empty =>
      subst hempty
      exact ⟨_, step_of_outside rfl (Nat.zero_le _), rfl⟩

/-! ### The invariants at the start of a run -/

theorem launchState_inv {image : List Byte} (h : image.length ≤ 32768) (pad : List Byte) :
    Inv (launchState image pad) where
  ramWf := rfl
  romWf := romPlace_wf _ 0 rfl
  imageFits := h
  imageListed k hk := by
    have hlisted : k < (launchBytes image pad).length := by
      rw [launchBytes, List.length_append]
      exact Nat.lt_add_right _ hk
    rw [lookup_launchState h pad hlisted, Option.isSome_some]
  pcBound := Nat.zero_le _
  haltIff := by constructor <;> nofun

theorem launchState_runInv (image pad : List Byte) : RunInv (launchState image pad) where
  xZero := rfl
  yZero := rfl
  spZero := rfl
  statusBits := .inl rfl

/-- A state with no halt record has nothing to explain. -/
theorem haltExplained_of_none {s : State} (h : s.halt = none) : HaltExplained s := by
  rw [HaltExplained, h]
  trivial

/-- Settles O40: the image is listed because it comes first among the bytes placed in ROM. -/
theorem everyLaunchMeetsTheInvariants : Obligations.EveryLaunchMeetsTheInvariants := by
  intro image pad s hlaunch
  obtain ⟨hfits, rfl⟩ := initialise_next hlaunch
  exact ⟨launchState_inv hfits pad, launchState_runInv image pad, haltExplained_of_none rfl⟩

/-- Settles O39: the state after reset is the launch of an empty image with no ROM_PAD. -/
theorem resetMeetsTheInvariants : Obligations.ResetMeetsTheInvariants :=
  everyLaunchMeetsTheInvariants [] [] State.reset rfl

end Sys2Proof.Machine
end

section
/-! PROOFS. The addresses of 40_addressing_modes.md as numbers (R61 to R69, R71), and what LDA and STA do
in each mode (41_load_store.md). -/

namespace Sys2Proof.Machine

/-! ### Addresses -/

/-- A word is the number it is worth modulo 65536. -/
theorem eq_ofNat_of_toNat {w : Word} {n : Nat} (h : w.toNat = n % 65536) : w = BitVec.ofNat 16 n :=
  BitVec.eq_of_toNat_eq (h.trans (BitVec.toNat_ofNat n 16).symm)

theorem zext16_eq_ofNat (b : Byte) : zext16 b = BitVec.ofNat 16 b.toNat := by
  refine eq_ofNat_of_toNat ?_
  rw [zext16_toNat]
  omega

theorem zext16_add_eq_ofNat (nn b : Byte) :
    zext16 (nn + b) = BitVec.ofNat 16 ((nn.toNat + b.toNat) % 256) := by
  rw [zext16_eq_ofNat, BitVec.toNat_add]

theorem add_zext16_eq_ofNat (w : Word) (b : Byte) :
    w + zext16 b = BitVec.ofNat 16 (w.toNat + b.toNat) :=
  eq_ofNat_of_toNat (toNat_add_zext16 w b)

/-- The value of a zero-page pointer (20_memory.md R37). -/
theorem ptrRead16_zext16_toNat (s : State) (nn : Byte) :
    (ptrRead16 s (zext16 nn)).toNat =
      256 * (ramByte s.ram ((nn.toNat + 1) % 256)).toNat + (ramByte s.ram nn.toNat).toNat := by
  rw [ptrRead16_zeroPage, wordOf_toNat]

/-- The value of a zero-page pointer whose place is a sum. -/
theorem ptrRead16_zext16_add_toNat (s : State) (nn b : Byte) :
    (ptrRead16 s (zext16 (nn + b))).toNat =
      256 * (ramByte s.ram ((nn.toNat + b.toNat + 1) % 256)).toNat +
        (ramByte s.ram ((nn.toNat + b.toNat) % 256)).toNat := by
  rw [ptrRead16_zext16_toNat, BitVec.toNat_add, Nat.mod_add_mod]

@[simp] theorem resolve_indirectIndexed_zext16 (nn : Byte) (s : State) :
    resolve .indirectIndexed (zext16 nn) s = some (ptrRead16 s (zext16 nn) + zext16 s.y) := by
  rw [resolve, lowByte_zext16, eaIndirectIndexed]

/-- The address of indirect-indexed (R65). -/
theorem eaIndirectIndexed_toNat (nn : Byte) (s : State) :
    (ptrRead16 s (zext16 nn) + zext16 s.y).toNat =
      (256 * (ramByte s.ram ((nn.toNat + 1) % 256)).toNat + (ramByte s.ram nn.toNat).toNat +
        s.y.toNat) % 65536 := by
  rw [toNat_add_zext16, ptrRead16_zext16_toNat]

/-- Settles O13: Y is added to the pointer's value. -/
theorem indirectIndexedIndexesAfterTheIndirection :
    Obligations.IndirectIndexedIndexesAfterTheIndirection := by
  intro op nn s
  exact ⟨rfl, _, resolve_indirectIndexed_zext16 nn s, eaIndirectIndexed_toNat nn s⟩

/-- A signed displacement from PC + 2 (R69). -/
theorem eaRelative_toNat (nn : Byte) (s : State) :
    ((eaRelative nn s).toNat : Int) = ((s.pc.toNat : Int) + 2 + nn.toInt) % 65536 := by
  have hdisp : ((sext16 nn).toNat : Int) = nn.toInt % 65536 := by
    rw [sext16, BitVec.signExtend, BitVec.toNat_ofInt]
    omega
  rw [eaRelative, BitVec.toNat_add, BitVec.toNat_add]
  simp only [BitVec.toNat_ofNat]
  omega

/-- Settles O14: relative adds the displacement to PC + 2, and indirect reads a pointer within its
page. -/
theorem relativeAndIndirectModesResolve : Obligations.RelativeAndIndirectModesResolve := by
  refine fun op nn page off s => ⟨rfl, ⟨eaRelative nn s, ?relative, eaRelative_toNat nn s⟩, rfl, ?indirect⟩
  case relative => rw [resolve, lowByte_zext16]
  case indirect => rw [resolve, eaIndirect, ptrRead16, pointerHighAddress_wordOf]

/-! ### LDA -/

/-- A load with an effective address loads the byte there. -/
theorem exec_lda_of_resolve {i : Instr} {s : State} {ea : Word} (hop : i.op = .lda)
    (hea : resolve i.mode i.operand s = some ea) :
    ∃ t, exec i s = .next t ∧ Loaded (memRead s ea) s t := by
  refine ⟨_, exec_lda hop s, ?_⟩
  rw [loadedValue_of_resolve hea]
  exact loaded_loadAccumulator _ s

/-- Settles O23: the address of each mode is its 16-bit sum. -/
theorem absoluteLoadsReadTheIndexedAddress : Obligations.AbsoluteLoadsReadTheIndexedAddress := by
  intro hhll s
  rw [← add_zext16_eq_ofNat, ← add_zext16_eq_ofNat]
  exact ⟨exec_lda_of_resolve rfl rfl, exec_lda_of_resolve rfl rfl, exec_lda_of_resolve rfl rfl⟩

/-- Page 0 is RAM. -/
theorem memRead_zext16 (s : State) (b : Byte) : memRead s (zext16 b) = ramByte s.ram b.toNat := by
  have hram : (zext16 b).toNat < 0x8000 := by rw [zext16_toNat]; omega
  rw [memRead_ram hram, zext16_toNat]

/-- Settles O24: the address of each mode is a byte, and page 0 is RAM. -/
theorem zeroPageLoadsReadPageZero : Obligations.ZeroPageLoadsReadPageZero := by
  intro nn s
  rw [← BitVec.toNat_add, ← memRead_zext16, ← memRead_zext16]
  exact ⟨exec_lda_of_resolve rfl (resolve_zeroPage_zext16 nn s),
    exec_lda_of_resolve rfl (resolve_zeroPageX_zext16 nn s)⟩

/-- Settles O25: the address is the zero-page pointer's value, to which indirect-indexed adds Y. -/
theorem indirectLoadsFollowThePointer : Obligations.IndirectLoadsFollowThePointer := by
  intro nn s
  rw [← ptrRead16_zext16_add_toNat, ← ptrRead16_zext16_toNat, ← add_zext16_eq_ofNat, BitVec.ofNat_toNat,
    BitVec.setWidth_eq]
  exact ⟨exec_lda_of_resolve rfl (resolve_indexedIndirect_zext16 nn s),
    exec_lda_of_resolve rfl (resolve_indirectIndexed_zext16 nn s)⟩

theorem Flag.bit_injective : Function.Injective Flag.bit := by
  intro f g
  cases f <;> cases g <;> decide

/-- A load keeps every flag but N and Z. -/
theorem Loaded.testFlag_other {v : Byte} {s t : State} (h : Loaded v s t) {f : Flag}
    (hn : f ≠ .negative) (hz : f ≠ .zero) : testFlag f t = testFlag f s := by
  obtain ⟨-, -, -, hkept⟩ := h
  exact hkept f.bit f.bit_lt (Flag.bit_injective.ne hn) (Flag.bit_injective.ne hz)

theorem Loaded.a_eq {v : Byte} {s t : State} (h : Loaded v s t) : t.a = v := by
  obtain ⟨heq, -⟩ := h
  rw [heq]

section
variable (v : Byte) (s : State)

@[simp] theorem loadAccumulator_x : (loadAccumulator v s).x = s.x := by rw [loadAccumulator_eq]
@[simp] theorem loadAccumulator_y : (loadAccumulator v s).y = s.y := by rw [loadAccumulator_eq]
@[simp] theorem loadAccumulator_sp : (loadAccumulator v s).sp = s.sp := by rw [loadAccumulator_eq]
@[simp] theorem loadAccumulator_ram : (loadAccumulator v s).ram = s.ram := by rw [loadAccumulator_eq]
@[simp] theorem loadAccumulator_halt : (loadAccumulator v s).halt = s.halt := by
  rw [loadAccumulator_eq]

end

/-- Settles O26: nothing outside A and P differs after a load, and of P only N and Z. -/
theorem loadLeavesEverythingElseUnchanged : Obligations.LoadLeavesEverythingElseUnchanged := by
  intro i s t hop hexec
  obtain rfl : t = loadAccumulator (loadedValue i s) s :=
    Host.Outcome.next.inj (hexec.symm.trans (exec_lda hop s))
  have hload := loaded_loadAccumulator (loadedValue i s) s
  have hflag := fun f => hload.testFlag_other (f := f)
  obtain ⟨-, -, -, hbit⟩ := hload
  exact ⟨loadAccumulator_x _ s, loadAccumulator_y _ s, loadAccumulator_sp _ s, loadAccumulator_pc _ s,
    hflag .carry nofun nofun, hflag .interruptDisable nofun nofun, hflag .decimal nofun nofun,
    hflag .break nofun nofun, hflag .overflow nofun nofun, hbit 5 (by decide) (by decide) (by decide),
    memRead_congr (loadAccumulator_ram _ s) (loadAccumulator_rom _ s),
    fetchByte_congr (loadAccumulator_rom _ s), loadAccumulator_imageSize _ s, loadAccumulator_run _ s,
    loadAccumulator_halt _ s⟩

/-! ### STA -/

/-- A store to a RAM address completes. -/
theorem exec_sta_of_ram {i : Instr} {s : State} {ea : Word} (hop : i.op = .sta)
    (hea : resolve i.mode i.operand s = some ea) (hram : ea.toNat < 0x8000) :
    ∃ t, exec i s = .next t ∧ Stored ea s.a s t :=
  ⟨_, exec_sta hop hea, stored_memWrite hram s.a s⟩

/-- Settles O27: page 0 is below the split. -/
theorem zeroPageStoresWritePageZero : Obligations.ZeroPageStoresWritePageZero := by
  intro nn s
  have hram : ∀ b : Byte, (zext16 b).toNat < 0x8000 := fun b => by rw [zext16_toNat]; omega
  rw [← zext16_eq_ofNat, ← zext16_add_eq_ofNat]
  exact ⟨exec_sta_of_ram rfl (resolve_zeroPage_zext16 nn s) (hram nn),
    exec_sta_of_ram rfl (resolve_zeroPageX_zext16 nn s) (hram (nn + s.x))⟩

/-- Settles O28: the hypothesis of each mode says that its 16-bit sum is below the split. -/
theorem absoluteStoresCompleteInRam : Obligations.AbsoluteStoresCompleteInRam := by
  intro hhll s
  rw [← toNat_add_zext16, ← toNat_add_zext16, ← add_zext16_eq_ofNat, ← add_zext16_eq_ofNat]
  exact ⟨exec_sta_of_ram rfl rfl, exec_sta_of_ram rfl rfl, exec_sta_of_ram rfl rfl⟩

/-- Settles O29: the address is resolved on the state before the write. -/
theorem indirectStoresCompleteInRam : Obligations.IndirectStoresCompleteInRam := by
  intro nn s ea
  rw [← ptrRead16_zext16_add_toNat, ← eaIndirectIndexed_toNat, ← BitVec.toNat_eq, ← BitVec.toNat_eq]
  refine ⟨?indexedIndirect, ?indirectIndexed⟩
  case indexedIndirect =>
    rintro rfl
    exact exec_sta_of_ram rfl (resolve_indexedIndirect_zext16 nn s)
  case indirectIndexed =>
    rintro rfl
    exact exec_sta_of_ram rfl (resolve_indirectIndexed_zext16 nn s)

/-- Settles O30: every STA is one data write, which is refused at or above the split. -/
theorem storeIntoRomRaises : Obligations.StoreIntoRomRaises := by
  intro i s ea hop hea hrom
  exact ⟨_, exec_sta hop hea, memWrite_rom hrom s.a s⟩

/-- Settles O31: every STA is one data write, so it has the frame of `memWrite`. -/
theorem storeLeavesEverythingElseUnchanged : Obligations.StoreLeavesEverythingElseUnchanged := by
  intro i s t ea hop hexec hea
  obtain rfl : t = memWrite ea s.a s := Host.Outcome.next.inj (hexec.symm.trans (exec_sta hop hea))
  refine ⟨memWrite_a_eq .., memWrite_x_eq .., memWrite_y_eq .., memWrite_sp_eq .., memWrite_p_eq ..,
    memWrite_pc_eq .., fun b hb => memRead_memWrite_other hb s.a s,
    fun b hb => memRead_congr_of_rom (memWrite_rom_eq ..) hb, fetchByte_congr (memWrite_rom_eq ..),
    memWrite_imageSize_eq .., fun hram => ?controller⟩
  case controller =>
    rw [memWrite_ram hram]
    exact ⟨rfl, rfl⟩

/-! ### A store and a later load -/

/-- The load `j` gives back what the store `i` stored, with its N and Z, whatever A and P hold in
between. -/
def GivesBack (i j : Instr) (s : State) (a p : Byte) : Prop :=
  ∃ t u, exec i s = .next t ∧ exec j { t with a := a, p := p } = .next u ∧ u.a = s.a ∧
    testFlag .negative u = s.a.getLsbD 7 ∧ testFlag .zero u = decide (s.a = 0x00#8)

/-- A load gives back what a store to RAM stored if it resolves to the same address wherever X and Y are
the same. -/
theorem givesBack_of_resolve {i j : Instr} {s : State} {ea : Word} (hi : i.op = .sta) (hj : j.op = .lda)
    (hstore : resolve i.mode i.operand s = some ea)
    (hload : ∀ t : State, t.x = s.x → t.y = s.y → resolve j.mode j.operand t = some ea)
    (hram : ea.toNat < 0x8000) (a p : Byte) : GivesBack i j s a p := by
  obtain ⟨t, ht, hframe, hbyte, -⟩ := exec_sta_of_ram hi hstore hram
  have hea : resolve j.mode j.operand { t with a := a, p := p } = some ea :=
    hload _ (by rw [hframe]) (by rw [hframe])
  obtain ⟨u, hu, hloaded⟩ := exec_lda_of_resolve hj hea
  have hread : memRead { t with a := a, p := p } ea = s.a := (memRead_congr rfl rfl ea).trans hbyte
  rw [hread] at hloaded
  have hA := hloaded.a_eq
  obtain ⟨-, hN, hZ, -⟩ := hloaded
  exact ⟨t, u, ht, hu, hA, hN, hZ⟩

/-- Settles O32: the absolute modes resolve from the operand, X and Y alone, which a store keeps. -/
theorem storeThenLoadGivesTheValueBack : Obligations.StoreThenLoadGivesTheValueBack := by
  intro hhll s a p
  rw [← toNat_add_zext16, ← toNat_add_zext16]
  refine ⟨fun h => ?absolute, fun h => ?absoluteX, fun h => ?absoluteY⟩
  case absolute => exact givesBack_of_resolve rfl rfl rfl (fun _ _ _ => rfl) h a p
  case absoluteX =>
    refine givesBack_of_resolve rfl rfl rfl (fun t hx _ => ?_) h a p
    exact congrArg (fun b => some (hhll + zext16 b)) hx
  case absoluteY =>
    refine givesBack_of_resolve rfl rfl rfl (fun t _ hy => ?_) h a p
    exact congrArg (fun b => some (hhll + zext16 b)) hy

end Sys2Proof.Machine
end

section
/-! PROOFS. The complete step (42_fetch_execute.md R92 to R99): the instruction it fetches, the clauses of
R96, and the way PC moves to the end of the run. -/

namespace Sys2Proof.Machine

/-! ### The instruction at PC -/

/-- An instruction is its operation, mode and operand. -/
theorem instr_ext {i j : Instr} (hop : i.op = j.op) (hmode : i.mode = j.mode)
    (hoperand : i.operand = j.operand) : i = j := by
  have hbuild := buildInstr_parts i
  rw [hop, hmode, hoperand, buildInstr_parts] at hbuild
  exact (Option.some.inj hbuild).symm

/-- Every instruction is two or three bytes long (R54). -/
theorem length_two_or_three (i : Instr) : i.length = 2 ∨ i.length = 3 :=
  instrLength_of_admitted (admitted_parts i)

/-- The fetch at PC takes as many of the three bytes from PC on as the instruction has. -/
theorem fetch_of_decode {s : State} {i : Instr} {rest : List Byte}
    (h : decode [fetchByte s s.pc, fetchByte s (s.pc + 1#16), fetchByte s (s.pc + 2#16)] =
      .ok (i, rest)) : fetch s = .ok i := by
  obtain ⟨o, tail, w, hbytes, hentry, htake, hbuild⟩ := decode_cases h
  obtain ⟨rfl, rfl⟩ := List.cons.inj hbytes
  obtain ⟨j, hfetch, hop, hmode, hoperand⟩ := fetch_of_decodeOpcode hentry
  have hij : i.operand = j.operand := by
    rw [hoperand, operand_of_buildInstr hbuild, operandAtPc, ← Instr.length]
    obtain hlen | hlen := length_two_or_three i
    · rw [hlen] at htake ⊢
      cases htake
      exact congrArg zext16 (lowByte_zext16 _)
    · rw [hlen] at htake ⊢
      cases htake
      rfl
  rw [hfetch, instr_ext hop.symm hmode.symm hij]

theorem finish_of_running {t : State} (h : t.run = .running) (i : Instr) :
    finish i t = t.setPc (t.pc + BitVec.ofNat 16 i.length) := by
  rw [finish, h, advancePc]

theorem finish_of_halted {t : State} (h : t.run = .halted) (i : Instr) : finish i t = t := by
  rw [finish, h]

/-- Settles O33: the decoded instruction is the fetched one, and the step finishes what it leaves. -/
theorem stepRunsTheDecodedInstruction : Obligations.StepRunsTheDecodedInstruction := by
  intro s i rest hrun hpc hdecode
  obtain ⟨t, ht⟩ : ∃ t, exec i s = .next t := by
    obtain ⟨-, hex⟩ | ⟨-, ea, -, hex⟩ := exec_cases i s
    · exact ⟨_, hex⟩
    · exact ⟨_, hex⟩
  have hstep := step_of_fetch hrun hpc (fetch_of_decode hdecode) ht
  refine ⟨t, ht, fun hrunning => ?running, fun hhalted => ?halted⟩
  case running => rw [hstep, finish_of_running hrunning, State.setPc]
  case halted => rw [hstep, finish_of_halted hhalted]

/-! ### The clauses of R96 -/

/-- The step of a store to RAM stores A and moves PC. -/
theorem step_sta_ram {s : State} {i : Instr} {ea : Word} (hrun : s.run = .running)
    (hpc : s.pc.toNat < s.imageSize) (hf : fetch s = .ok i) (hop : i.op = .sta)
    (hea : resolve i.mode i.operand s = some ea) (hram : ea.toNat < 0x8000) :
    step s = .next ((s.setRam (ramStore ea.toNat s.a s.ram)).setPc
      (s.pc + BitVec.ofNat 16 i.length)) := by
  rw [step_of_fetch hrun hpc hf (exec_sta hop hea), memWrite_ram hram, finish_of_running,
    State.setRam_pc]
  exact hrun

/-- The step of a store to ROM halts with RomWriteViolation. -/
theorem step_sta_rom {s : State} {i : Instr} {ea : Word} (hrun : s.run = .running)
    (hpc : s.pc.toNat < s.imageSize) (hf : fetch s = .ok i) (hop : i.op = .sta)
    (hea : resolve i.mode i.operand s = some ea) (hrom : 0x8000 ≤ ea.toNat) :
    step s = .next (s.setHalted (.romWriteViolation s.pc (fetchByte s s.pc) ea)) := by
  rw [step_of_fetch hrun hpc hf (exec_sta hop hea), memWrite_rom hrom, finish_of_halted rfl]

/-- Apart from PC, a store to RAM that moves PC is the store. -/
theorem stored_setPc_setRam {ea : Word} (hram : ea.toNat < 0x8000) (v : Byte) (w : Word) (s : State) :
    Stored ea v s { (s.setRam (ramStore ea.toNat v s.ram)).setPc w with pc := s.pc } := by
  have hstored := stored_memWrite hram v s
  rw [memWrite_ram hram] at hstored
  exact hstored

/-- Settles O34: each clause of R96 is one branch of `step`. -/
theorem stepFollowsTheControlPseudocode : Obligations.StepFollowsTheControlPseudocode := by
  intro s
  refine ⟨step_halted, fun hrun hpc => ?outside, fun hrun hpc hnone => ?noEntry, ?lda, ?sta⟩
  case outside => exact ⟨_, step_of_outside hrun hpc, rfl⟩
  case noEntry => exact ⟨_, step_of_decodeOpcode_none hrun hpc hnone, rfl⟩
  case lda =>
    intro mode operand hrun hpc hentry hoperand
    obtain ⟨i, hf, hop, rfl, hi⟩ := fetch_of_decodeOpcode hentry
    obtain rfl : operand = i.operand := hoperand.trans hi.symm
    refine ⟨_, _, step_lda hrun hpc hf hop, ?_, loaded_setPc_loadAccumulator _ _ s,
      fun himm => loadedValue_immediate himm s, fun himm => ?resolved⟩
    · rw [State.setPc_pc, Instr.length, hop]
    case resolved =>
      obtain ⟨ea, hea⟩ := resolve_of_mode_ne_immediate himm s
      exact ⟨ea, hea, loadedValue_of_resolve hea⟩
  case sta =>
    intro mode operand hrun hpc hentry hoperand
    obtain ⟨i, hf, hop, rfl, hi⟩ := fetch_of_decodeOpcode hentry
    obtain rfl : operand = i.operand := hoperand.trans hi.symm
    obtain ⟨ea, hea⟩ := resolve_admitted_sta (decodeOpcode_admitted hentry) i.operand s
    obtain hram | hrom := Nat.lt_or_ge ea.toNat 0x8000
    · refine ⟨ea, _, hea, step_sta_ram hrun hpc hf hop hea hram, fun _ => ⟨?_, ?_⟩,
        fun hrom => absurd hrom (Nat.not_le.mpr hram)⟩
      · rw [State.setPc_pc, Instr.length, hop]
      · exact stored_setPc_setRam hram s.a _ s
    · exact ⟨ea, _, hea, step_sta_rom hrun hpc hf hop hea hrom,
        fun hram => absurd hrom (Nat.not_le.mpr hram), fun _ => rfl⟩

/-! ### PC -/

/-- A step halts, changing nothing else, or completes an instruction of the program region. -/
theorem step_halts_or_completes {s t : State} (h : step s = .next t) :
    (∃ r, t = s.setHalted r) ∨
    (t.run = .running ∧ s.pc.toNat < s.imageSize ∧
      ∃ i, fetch s = .ok i ∧ t.pc = s.pc + BitVec.ofNat 16 i.length) := by
  obtain ⟨hrun, ⟨-, rfl⟩ | ⟨hpc, ⟨-, rfl⟩ | ⟨i, hf, -, rfl⟩ | ⟨i, ea, hf, -, -, hstore⟩⟩⟩ := step_cases h
  case inl => exact .inl ⟨_, rfl⟩
  case inr.inl => exact .inl ⟨_, rfl⟩
  case inr.inr.inl =>
    exact .inr ⟨(loadAccumulator_run _ s).trans hrun, hpc, i, hf, rfl⟩
  case inr.inr.inr =>
    obtain ⟨-, rfl⟩ | ⟨-, rfl⟩ := hstore
    · exact .inr ⟨hrun, hpc, i, hf, rfl⟩
    · exact .inl ⟨_, rfl⟩

/-- PC does not wrap when it moves past an instruction of a region inside ROM (R97). -/
theorem toNat_pc_add_length {s : State} (hfits : s.imageSize ≤ 32768) (hpc : s.pc.toNat < s.imageSize)
    (i : Instr) : (s.pc + BitVec.ofNat 16 i.length).toNat = s.pc.toNat + i.length := by
  have hlen := length_two_or_three i
  rw [BitVec.toNat_add, BitVec.toNat_ofNat]
  omega

/-- Settles O38: a completed step moves PC by the length of the fetched instruction, and a halt leaves
PC. -/
theorem completedStepAdvancesPcByTwoOrThree : Obligations.CompletedStepAdvancesPcByTwoOrThree := by
  intro s t hfits hstep
  obtain ⟨r, rfl⟩ | ⟨hrun, hpc, i, hf, hpc'⟩ := step_halts_or_completes hstep
  · exact ⟨nofun, fun _ => rfl⟩
  · obtain ⟨hentry, -⟩ := fetch_ok hf
    refine ⟨fun _ => ⟨i.op, i.mode, hentry, ?_, length_two_or_three i⟩, fun hhalted => ?_⟩
    · rw [hpc', toNat_pc_add_length hfits hpc, Instr.length]
    · rw [hrun] at hhalted
      cases hhalted

/-! ### The end of a run -/

/-- The bound of R99: the instruction steps that can still complete, and the halting step. -/
def stepBound (s : State) : Nat := (s.imageSize - s.pc.toNat + 1) / 2 + 1

/-- The bound falls at every completed step. -/
theorem stepBound_lt {s t : State} {i : Instr} (hfits : s.imageSize ≤ 32768)
    (hpc : s.pc.toNat < s.imageSize) (hsize : t.imageSize = s.imageSize)
    (hpc' : t.pc = s.pc + BitVec.ofNat 16 i.length) : stepBound t < stepBound s := by
  have hlen := length_two_or_three i
  rw [stepBound, stepBound, hsize, hpc', toNat_pc_add_length hfits hpc]
  omega

/-- A Running state reaches its end within its bound. -/
theorem exists_run_end (s : State) (hrun : s.run = .running) (hfits : s.imageSize ≤ 32768) :
    ∃ k t, k ≤ stepBound s ∧ Host.Core.run core k s = .next t ∧ (NormalEnd t ∨ FaultEnd t) := by
  obtain ⟨u, hstep⟩ := step_running hrun
  obtain ⟨r, rfl⟩ | ⟨hrun', hpc, i, hf, hpc'⟩ := step_halts_or_completes hstep
  · exact ⟨1, _, Nat.le_add_left 1 _, run_succ_of_next hstep 0, end_setHalted s r⟩
  · obtain ⟨-, hsize⟩ := step_sameProgram hstep
    have hlt := stepBound_lt hfits hpc hsize hpc'
    obtain ⟨k, t, hk, hkt, hend⟩ := exists_run_end u hrun' (hsize ▸ hfits)
    exact ⟨k + 1, t, by omega, (run_succ_of_next hstep k).trans hkt, hend⟩
termination_by stepBound s

/-- Settles O48: each completed step lowers the bound, and the step that does not complete ends the
run. -/
theorem everyRunHaltsWithinItsBound : Obligations.EveryRunHaltsWithinItsBound := exists_run_end

end Sys2Proof.Machine
end

section
/-! PROOFS. What every step keeps: the invariants, the registers and flags no instruction writes, RAM but
for a store, and the independence of P and SP (10_state.md, 20_memory.md R30). -/

namespace Sys2Proof.Machine

/-! ### The machine invariant -/

/-- The invariant does not speak of the registers other than PC. -/
theorem Inv.loadAccumulator {s : State} (h : Inv s) (v : Byte) :
    Inv (Machine.loadAccumulator v s) := by
  rw [loadAccumulator_eq]
  exact { h with }

theorem Inv.setPc {s : State} (h : Inv s) {w : Word} (hw : w.toNat ≤ s.imageSize + 2) :
    Inv (s.setPc w) :=
  { h with pcBound := hw }

theorem Inv.setRam {s : State} (h : Inv s) {m : Memory} (hm : m.wf = true) : Inv (s.setRam m) :=
  { h with ramWf := hm }

theorem Inv.setHalted {s : State} (h : Inv s) (r : HaltRecord) : Inv (s.setHalted r) :=
  { h with haltIff := ⟨fun _ => rfl, fun _ => rfl⟩ }

/-- PC moved past an instruction is at most two bytes past the program region (R97). -/
theorem Inv.pc_add_length_le {s : State} (h : Inv s) (hpc : s.pc.toNat < s.imageSize) (i : Instr) :
    (s.pc + BitVec.ofNat 16 i.length).toNat ≤ s.imageSize + 2 := by
  have hlen := length_two_or_three i
  rw [toNat_pc_add_length h.imageFits hpc]
  omega

/-- Settles O41: each of the four effects of a step keeps the invariant. -/
theorem stepKeepsTheMachineInvariant : Obligations.StepKeepsTheMachineInvariant := by
  intro s t hinv hstep
  obtain ⟨-, ⟨-, rfl⟩ | ⟨hpc, ⟨-, rfl⟩ | ⟨i, -, -, rfl⟩ | ⟨i, ea, -, -, -, hstore⟩⟩⟩ :=
    step_cases hstep
  case inl => exact hinv.setHalted _
  case inr.inl => exact hinv.setHalted _
  case inr.inr.inl =>
    refine (hinv.loadAccumulator _).setPc ?_
    rw [loadAccumulator_imageSize]
    exact hinv.pc_add_length_le hpc i
  case inr.inr.inr =>
    obtain ⟨hram, rfl⟩ | ⟨-, rfl⟩ := hstore
    · exact (hinv.setRam (ramStore_wf s.a hram hinv.ramWf)).setPc (hinv.pc_add_length_le hpc i)
    · exact hinv.setHalted _

/-! ### The halt record -/

theorem Inv.halt_eq_none {s : State} (h : Inv s) (hrun : s.run = .running) : s.halt = none := by
  rw [← Option.not_isSome_iff_eq_none, h.haltIff, hrun]
  nofun

/-- A fetched STA and its address, read off the bytes at PC. -/
theorem sta_at_pc {s : State} {i : Instr} {ea : Word} (hf : fetch s = .ok i) (hop : i.op = .sta)
    (hea : resolve i.mode i.operand s = some ea) :
    decodeOpcode (fetchByte s s.pc) = some (.sta, i.mode) ∧
      resolve i.mode (operandAtPc s (instrLength .sta i.mode)) s = some ea := by
  obtain ⟨hentry, hoperand⟩ := fetch_ok hf
  rw [hoperand, Instr.length, hop] at hea
  rw [hop] at hentry
  exact ⟨hentry, hea⟩

/-- Settles O43: a step that completes leaves no record, and a step that halts writes the PC, byte and
address it has just tested. -/
theorem stepKeepsTheHaltRecordTrue : Obligations.StepKeepsTheHaltRecordTrue := by
  intro s t hinv _ hstep
  obtain ⟨hrun, ⟨hout, rfl⟩ | ⟨hpc, ⟨hnone, rfl⟩ | ⟨i, -, -, rfl⟩ | ⟨i, ea, hf, hop, hea, hstore⟩⟩⟩ :=
    step_cases hstep
  case inl => exact ⟨rfl, hout⟩
  case inr.inl => exact ⟨rfl, hpc, rfl, hnone⟩
  case inr.inr.inl =>
    exact haltExplained_of_none ((loadAccumulator_halt _ s).trans (hinv.halt_eq_none hrun))
  case inr.inr.inr =>
    obtain ⟨-, rfl⟩ | ⟨hrom, rfl⟩ := hstore
    · exact haltExplained_of_none (hinv.halt_eq_none hrun)
    · exact ⟨rfl, hpc, rfl, hrom, i.mode, sta_at_pc hf hop hea⟩

/-! ### Registers and flags -/

/-- What a step can do to X, Y, SP and P: nothing, but for the classification of a loaded value. -/
theorem step_registers {s t : State} (h : step s = .next t) :
    t.x = s.x ∧ t.y = s.y ∧ t.sp = s.sp ∧ (t.p = s.p ∨ ∃ v, t.p = (classifySignZero v s).p) := by
  obtain ⟨-, ⟨-, rfl⟩ | ⟨-, ⟨-, rfl⟩ | ⟨i, -, -, rfl⟩ | ⟨i, ea, -, -, -, hstore⟩⟩⟩ := step_cases h
  case inl => exact ⟨rfl, rfl, rfl, .inl rfl⟩
  case inr.inl => exact ⟨rfl, rfl, rfl, .inl rfl⟩
  case inr.inr.inl =>
    rw [loadAccumulator_eq]
    exact ⟨rfl, rfl, rfl, .inr ⟨_, rfl⟩⟩
  case inr.inr.inr =>
    obtain ⟨-, rfl⟩ | ⟨-, rfl⟩ := hstore
    · exact ⟨rfl, rfl, rfl, .inl rfl⟩
    · exact ⟨rfl, rfl, rfl, .inl rfl⟩

/-- Settles O44: of P a step writes only what the classification writes, N and Z. -/
theorem stepNeverWritesIndexStackOrOtherFlags : Obligations.StepNeverWritesIndexStackOrOtherFlags := by
  intro s t hstep
  obtain ⟨hx, hy, hsp, hp⟩ := step_registers hstep
  have hbit : ∀ k < 8, k ≠ 7 → k ≠ 1 → t.p.getLsbD k = s.p.getLsbD k := by
    intro k hk h7 h1
    obtain hp | ⟨v, hp⟩ := hp
    · rw [hp]
    · rw [hp, classifySignZero_bit_other v s hk h7 h1]
  exact ⟨hx, hy, hsp, hbit 0 (by decide) (by decide) (by decide),
    hbit 2 (by decide) (by decide) (by decide), hbit 3 (by decide) (by decide) (by decide),
    hbit 4 (by decide) (by decide) (by decide), hbit 6 (by decide) (by decide) (by decide),
    hbit 5 (by decide) (by decide) (by decide)⟩

/-- From a P with no bit but N and Z, the classification leaves one of the three values of R21. -/
theorem classifySignZero_statusBits {s : State} (h : s.p = 0x00#8 ∨ s.p = 0x02#8 ∨ s.p = 0x80#8)
    (v : Byte) : (classifySignZero v s).p = 0x00#8 ∨ (classifySignZero v s).p = 0x02#8 ∨
      (classifySignZero v s).p = 0x80#8 := by
  have hother : s.p &&& 0x7D#8 = 0x00#8 := by
    obtain hp | hp | hp := h <;> rw [hp] <;> rfl
  rw [classifySignZero_p, hother]
  split
  · exact .inr (.inr rfl)
  · split
    · exact .inr (.inl rfl)
    · exact .inl rfl

/-- Settles O42: X, Y and SP are kept, and P is kept or classified. -/
theorem stepKeepsTheRunInvariant : Obligations.StepKeepsTheRunInvariant := by
  intro s t hinv hstep
  obtain ⟨hx, hy, hsp, hp⟩ := step_registers hstep
  refine ⟨hx.trans hinv.xZero, hy.trans hinv.yZero, hsp.trans hinv.spZero, ?_⟩
  obtain hp | ⟨v, hp⟩ := hp
  · exact hp ▸ hinv.statusBits
  · exact hp ▸ classifySignZero_statusBits hinv.statusBits v

/-! ### RAM -/

/-- Settles O46: a halt and a load write neither array, and a completed store writes the one byte. -/
theorem onlyAStoreChangesRam : Obligations.OnlyAStoreChangesRam := by
  intro s t b hstep hchanged
  obtain ⟨hrun, ⟨-, rfl⟩ | ⟨-, ⟨-, rfl⟩ | ⟨i, -, -, rfl⟩ | ⟨i, ea, hf, hop, hea, hstore⟩⟩⟩ :=
    step_cases hstep
  case inl => exact absurd (memRead_congr rfl rfl b) hchanged
  case inr.inl => exact absurd (memRead_congr rfl rfl b) hchanged
  case inr.inr.inl =>
    exact absurd (memRead_congr (loadAccumulator_ram _ s) (loadAccumulator_rom _ s) b) hchanged
  case inr.inr.inr =>
    obtain ⟨hram, rfl⟩ | ⟨-, rfl⟩ := hstore
    · obtain ⟨-, hself, hother⟩ := stored_setPc_setRam hram s.a s.pc s
      obtain rfl : b = ea := not_not.mp fun hne => hchanged (hother b hne)
      exact ⟨hrun, hram, hself, i.mode, sta_at_pc hf hop hea⟩
    · exact absurd (memRead_congr rfl rfl b) hchanged

/-! ### P and SP -/

/-- The value loaded depends on X, Y, PC and data reads alone. -/
theorem loadedValue_congr {s t : State} (hx : t.x = s.x) (hy : t.y = s.y) (hpc : t.pc = s.pc)
    (hmem : ∀ a, memRead t a = memRead s a) (i : Instr) : loadedValue i t = loadedValue i s := by
  simp only [loadedValue, resolve_congr hx hy hpc hmem, hmem]

/-- Settles O47: what a step tests and fetches, resolves and loads depends on the other fields alone, so
the step takes the same branch. -/
theorem stepIgnoresStatusAndStackPointer : Obligations.StepIgnoresStatusAndStackPointer := by
  intro s t p sp hstep
  have hfetch : fetch { s with p := p, sp := sp } = fetch s := fetch_congr rfl rfl
  have hmem : ∀ a, memRead { s with p := p, sp := sp } a = memRead s a := memRead_congr rfl rfl
  obtain ⟨hrun, ⟨hout, rfl⟩ | ⟨hpc, ⟨hnone, rfl⟩ | ⟨i, hf, hop, rfl⟩ | ⟨i, ea, hf, hop, hea, hstore⟩⟩⟩ :=
    step_cases hstep
  case inl => exact ⟨_, step_of_outside hrun hout, rfl, rfl⟩
  case inr.inl => exact ⟨_, step_of_decodeOpcode_none hrun hpc hnone, rfl, rfl⟩
  case inr.inr.inl =>
    refine ⟨_, step_lda hrun hpc (hfetch.trans hf) hop, ?_, loadAccumulator_sp _ _⟩
    rw [loadedValue_congr rfl rfl rfl hmem, loadAccumulator_eq, loadAccumulator_eq]
    rfl
  case inr.inr.inr =>
    have hea' := (resolve_congr rfl rfl rfl hmem i.mode i.operand).trans hea
    obtain ⟨hram, rfl⟩ | ⟨hrom, rfl⟩ := hstore
    · exact ⟨_, step_sta_ram hrun hpc (hfetch.trans hf) hop hea' hram, rfl, rfl⟩
    · exact ⟨_, step_sta_rom hrun hpc (hfetch.trans hf) hop hea' hrom, rfl, rfl⟩

end Sys2Proof.Machine
end
